-- ==== Sys2Proof/Word.lean ====
section
/-! DEFINITION. The word types of the engine: 64-bit state words, the two-lane wide word of unit V, and the 132-bit
command word (00_scope.md R9 to R11, 43_vector.md R181, 30_encoding.md R81). -/

namespace Sys2Proof

/-- A state word or recurrence output: an unsigned 64-bit integer (00_scope.md R9, XLEN of R7). -/
abbrev Word := BitVec 64

/-- A command word `cmd[131:0]` (30_encoding.md R81). -/
abbrev CmdWord := BitVec 132

/-- A wide word of unit V: `N = 2` lanes of 64 bits (43_vector.md R181). -/
@[ext]
structure Wide where
  lane0 : Word
  lane1 : Word
  deriving DecidableEq, Repr

end Sys2Proof
end

