-- ==== Sys2Proof/Syntax.lean ====
section
/-! DEFINITION. The nine commands of the engine, one constructor per row of the opcode map (30_encoding.md R80, R86). -/

namespace Sys2Proof

/-- The three generator units (00_scope.md R3). -/
inductive UnitId where
  | u | b | v
  deriving DecidableEq, Repr

/-- The three operations (30_encoding.md R80). -/
inductive OpId where
  | seed | draw | refill
  deriving DecidableEq, Repr

/-- A command. SEED carries its two operand words verbatim (30_encoding.md R84); DRAW and REFILL carry none (R85). -/
inductive Instr where
  | seedU (a b : Word)
  | drawU
  | refillU
  | seedB (a b : Word)
  | drawB
  | refillB
  | seedV (a b : Word)
  | drawV
  | refillV
  deriving DecidableEq, Repr

/-- The unit a command addresses. -/
def Instr.unit : Instr → UnitId
  | .seedU _ _ => .u | .drawU => .u | .refillU => .u
  | .seedB _ _ => .b | .drawB => .b | .refillB => .b
  | .seedV _ _ => .v | .drawV => .v | .refillV => .v

/-- The operation a command asks for. -/
def Instr.op : Instr → OpId
  | .seedU _ _ => .seed | .drawU => .draw | .refillU => .refill
  | .seedB _ _ => .seed | .drawB => .draw | .refillB => .refill
  | .seedV _ _ => .seed | .drawV => .draw | .refillV => .refill

/-- The command's mnemonic (30_encoding.md R86, R92). -/
def Instr.mnemonic : Instr → String
  | .seedU _ _ => "SEED.U" | .drawU => "DRAW.U" | .refillU => "REFILL.U"
  | .seedB _ _ => "SEED.B" | .drawB => "DRAW.B" | .refillB => "REFILL.B"
  | .seedV _ _ => "SEED.V" | .drawV => "DRAW.V" | .refillV => "REFILL.V"

end Sys2Proof
end

