-- ==== Sys2Proof/Config.lean ====
section
/-! DEFINITION. The build-time parameters of the engine (00_scope.md R7, R8; 10_state.md R31). Every value of `Config` is
a legal engine: a width is one of the seven divisors of 64 and a block size is even and at least 2 by construction (log
entry 12), so no rule needs a hypothesis about them. The lane count is fixed to 2 by the type `Wide`. -/

namespace Sys2Proof

/-- An output width: the positive divisors of 64 are its legal values (00_scope.md R8). -/
inductive Width where
  | w1 | w2 | w4 | w8 | w16 | w32 | w64
  deriving DecidableEq, Repr

/-- The width in bits. -/
def Width.bits : Width → Nat
  | .w1 => 1 | .w2 => 2 | .w4 => 4 | .w8 => 8 | .w16 => 16 | .w32 => 32 | .w64 => 64

/-- `R_X = 64 / W_X`: elements per 64-bit word (00_scope.md R7). -/
def Width.perWord (w : Width) : Nat := 64 / w.bits

/-- The width of the given number of bits, where it is a legal one. -/
def Width.ofBits? : Nat → Option Width
  | 1 => some .w1 | 2 => some .w2 | 4 => some .w4 | 8 => some .w8
  | 16 => some .w16 | 32 => some .w32 | 64 => some .w64 | _ => none

/-- A block size: even and at least 2 (00_scope.md R7). It is kept as the number of pairs beyond the first, so that
every even number from 2 up is written in exactly one way and no other number can be written. -/
structure BlockSize where
  morePairs : Nat
  deriving DecidableEq, Repr

/-- The iterations of a refill's loop: `BLOCK / 2` (42_buffered.md R152, 43_vector.md R185). -/
def BlockSize.pairs (k : BlockSize) : Nat := k.morePairs + 1

/-- The block size itself: 64-bit words (unit B) or wide words (unit V) per refill. -/
def BlockSize.words (k : BlockSize) : Nat := 2 * k.pairs

/-- The block size of the given number of words, where it is even and at least 2. -/
def BlockSize.ofWords? (n : Nat) : Option BlockSize :=
  if 2 ≤ n ∧ n % 2 = 0 then some ⟨n / 2 - 1⟩ else none

/-- RESEED_POLICY: what a second SEED to a seeded unit does. The spec fixes `fault`; a model may offer `reinit`
(00_scope.md R7, 60_exceptions.md R234; log entry 11). -/
inductive ReseedPolicy where
  | fault | reinit
  deriving DecidableEq, Repr

/-- The configuration record of one engine (10_state.md R31): constants of the engine that nothing writes. -/
structure Config where
  wU : Width
  wB : Width
  wV : Width
  blockB : BlockSize
  blockV : BlockSize
  reseed : ReseedPolicy
  deriving DecidableEq, Repr

/-- `N`, the lanes of a wide word (43_vector.md R181). -/
def Config.lanes : Nat := 2

/-- `ITEMS_B = BLOCK_B * R_B`, unit B's item count (00_scope.md R7). -/
def Config.itemsB (c : Config) : Nat := c.blockB.words * c.wB.perWord

/-- `ITEMS_V = BLOCK_V * N * R_V`, unit V's item count (00_scope.md R7). -/
def Config.itemsV (c : Config) : Nat := c.blockV.words * Config.lanes * c.wV.perWord

end Sys2Proof
end

