-- ==== Sys2Proof/WellFormed.lean ====
section
/-! DEFINITION. Well-formedness. The engine's static checks are those on its build-time parameters (60_exceptions.md
R237, 00_scope.md R7, R8, 43_vector.md R181); a command has none, since every operand pair is legal (30_encoding.md R84)
and no other operand exists (R85). -/

namespace Sys2Proof

/-- Build-time parameters as plain numbers, before they are checked (the table of 00_scope.md R7). -/
structure Params where
  wU : Nat
  wB : Nat
  wV : Nat
  blockB : Nat
  blockV : Nat
  lanes : Nat
  reseed : ReseedPolicy
  deriving DecidableEq, Repr

/-- A width is legal when it is a positive divisor of 64 (00_scope.md R8). -/
def legalWidth (w : Nat) : Bool := w != 0 && 64 % w == 0

/-- A block size is legal when it is even and at least 2 (00_scope.md R7). -/
def legalBlock (n : Nat) : Bool := 2 ≤ n && n % 2 == 0

/-- The static preconditions of an engine (60_exceptions.md R237): three widths, two block sizes, and the lane count
that the spec fixes (43_vector.md R181). -/
def Params.wf (p : Params) : Bool :=
  legalWidth p.wU && legalWidth p.wB && legalWidth p.wV && legalBlock p.blockB && legalBlock p.blockV &&
    p.lanes == Config.lanes

/-- Build the engine of some parameters, or refuse to: "an engine that breaks them is not built" (60_exceptions.md
R237). -/
def Params.build (p : Params) : Option Config :=
  match Width.ofBits? p.wU, Width.ofBits? p.wB, Width.ofBits? p.wV,
      BlockSize.ofWords? p.blockB, BlockSize.ofWords? p.blockV with
  | some wU, some wB, some wV, some bB, some bV =>
    if p.lanes = Config.lanes then some ⟨wU, wB, wV, bB, bV, p.reseed⟩ else none
  | _, _, _, _, _ => none

/-- Every command is well formed: SEED takes every operand pair (30_encoding.md R84) and the rest take none (R85). -/
def Instr.wf : Instr → Bool
  | .seedU _ _ => true | .drawU => true | .refillU => true
  | .seedB _ _ => true | .drawB => true | .refillB => true
  | .seedV _ _ => true | .drawV => true | .refillV => true

end Sys2Proof
end

