-- ==== Sys2Proof/Decode.lean ====
section
/-! DEFINITION. The command decoder, total on every 132-bit word, and the encoder (30_encoding.md R81 to R88). -/

namespace Sys2Proof

/-- What a command word is: one of the nine commands, or reserved with its top four bits, the information that
F_RESERVED carries (30_encoding.md R88, 60_exceptions.md R232). -/
inductive Decoded where
  | command (i : Instr)
  | reserved (top : BitVec 4)
  deriving DecidableEq, Repr

/-- `cmd[131:130]`, the field `unit` (30_encoding.md R81). -/
def cmdUnit (w : CmdWord) : BitVec 2 := w.extractLsb' 130 2

/-- `cmd[129:128]`, the field `op` (30_encoding.md R81). -/
def cmdOp (w : CmdWord) : BitVec 2 := w.extractLsb' 128 2

/-- `cmd[127:64]`, the field `a` (30_encoding.md R81, R84). -/
def cmdA (w : CmdWord) : Word := w.extractLsb' 64 64

/-- `cmd[63:0]`, the field `b` (30_encoding.md R81, R84). -/
def cmdB (w : CmdWord) : Word := w.extractLsb' 0 64

/-- `cmd[131:128]`, the first hexadecimal digit (30_encoding.md R86). -/
def cmdTop (w : CmdWord) : BitVec 4 := w.extractLsb' 128 4

/-- Values of the field `unit`; `11` is reserved (30_encoding.md R82). -/
def decodeUnit (x : BitVec 2) : Option UnitId :=
  match x.toNat with
  | 0 => some .u
  | 1 => some .b
  | 2 => some .v
  | _ => none

/-- Values of the field `op`; `00` is reserved (30_encoding.md R83). -/
def decodeOp (x : BitVec 2) : Option OpId :=
  match x.toNat with
  | 1 => some .seed
  | 2 => some .draw
  | 3 => some .refill
  | _ => none

/-- The command of a unit and an operation; the operand words are used by SEED alone (30_encoding.md R84, R85). -/
def mkInstr (x : UnitId) (o : OpId) (a b : Word) : Instr :=
  match x, o with
  | .u, .seed => .seedU a b
  | .u, .draw => .drawU
  | .u, .refill => .refillU
  | .b, .seed => .seedB a b
  | .b, .draw => .drawB
  | .b, .refill => .refillB
  | .v, .seed => .seedV a b
  | .v, .draw => .drawV
  | .v, .refill => .refillV

/-- The decoder: exactly one of the nine commands or reserved, decided by the top four bits (30_encoding.md R86, R87,
R88). -/
def decode (w : CmdWord) : Decoded :=
  match decodeUnit (cmdUnit w), decodeOp (cmdOp w) with
  | some x, some o => .command (mkInstr x o (cmdA w) (cmdB w))
  | _, _ => .reserved (cmdTop w)

/-! The encoder -/

/-- The code of a unit (30_encoding.md R82). -/
def UnitId.code : UnitId → BitVec 2
  | .u => 0b00 | .b => 0b01 | .v => 0b10

/-- The code of an operation (30_encoding.md R83). -/
def OpId.code : OpId → BitVec 2
  | .seed => 0b01 | .draw => 0b10 | .refill => 0b11

/-- The command word of four fields, `unit` in the most significant place (30_encoding.md R81). -/
def packCmd (x o : BitVec 2) (a b : Word) : CmdWord := x ++ o ++ a ++ b

/-- The operand words a command puts in its word: zeros where it has none (30_encoding.md R85). -/
def Instr.operands : Instr → Word × Word
  | .seedU a b => (a, b) | .drawU => (0, 0) | .refillU => (0, 0)
  | .seedB a b => (a, b) | .drawB => (0, 0) | .refillB => (0, 0)
  | .seedV a b => (a, b) | .drawV => (0, 0) | .refillV => (0, 0)

/-- The canonical command word of a command (30_encoding.md R84, R85). -/
def encode (i : Instr) : CmdWord := packCmd i.unit.code i.op.code i.operands.1 i.operands.2

/-! The opcode map as the spec lists it -/

/-- One row of the opcode map: a word `c` is the row's command when `c AND mask = match` (30_encoding.md R86). -/
structure OpcodeRow where
  mnemonic : String
  value : CmdWord
  mask : CmdWord
  deriving DecidableEq, Repr

/-- The word whose first hexadecimal digit is the given one and whose other bits are zero. -/
def topDigit (d : BitVec 4) : CmdWord := d ++ (0 : BitVec 128)

/-- The complete opcode map (30_encoding.md R86); every row's mask is `0xF << 128`. -/
def opcodeMap : List OpcodeRow :=
  [⟨"SEED.U", topDigit 0x1, topDigit 0xF⟩, ⟨"DRAW.U", topDigit 0x2, topDigit 0xF⟩,
   ⟨"REFILL.U", topDigit 0x3, topDigit 0xF⟩, ⟨"SEED.B", topDigit 0x5, topDigit 0xF⟩,
   ⟨"DRAW.B", topDigit 0x6, topDigit 0xF⟩, ⟨"REFILL.B", topDigit 0x7, topDigit 0xF⟩,
   ⟨"SEED.V", topDigit 0x9, topDigit 0xF⟩, ⟨"DRAW.V", topDigit 0xA, topDigit 0xF⟩,
   ⟨"REFILL.V", topDigit 0xB, topDigit 0xF⟩]

/-- The row's test on a word. -/
def OpcodeRow.covers (r : OpcodeRow) (w : CmdWord) : Bool := w &&& r.mask == r.value

/-! The table's numbering of bits -/

/-- The command word that `nbits` bits of a number stand for: one word, bit 0 the least significant, bits above `nbits`
zero, and no bit above 131 (30_encoding.md R81; log entry 13). -/
def cmdOfTable (nbits w : Nat) : CmdWord := BitVec.ofNat 132 (w % 2 ^ nbits)

/-- The instruction the decoder reads from a word in the table's numbering; none where the word is reserved. -/
def decodeTableWord (nbits w : Nat) : Option Instr :=
  match decode (cmdOfTable nbits w) with
  | .command i => some i
  | .reserved _ => none

end Sys2Proof
end

