-- ==== Sys2Proof/Machine/State.lean ====
section
/-! DEFINITION. The state of the engine (10_state.md R20 to R28, R44), the faults and refusals of a step, and the state
after reset (10_state.md R46, 70_reset_and_hazards.md R260). -/

namespace Sys2Proof.Machine

/-- Unit U: its two state words and its flag (10_state.md R21, R28). -/
@[ext]
structure UnitU where
  s0 : Word
  s1 : Word
  seeded : Bool
  deriving DecidableEq, Repr

/-- Unit B: its two state words, its output buffer of `BLOCK_B` words, its cursor, which counts items, and its flag
(10_state.md R22, R24, R26, R27, R28). -/
@[ext]
structure UnitB where
  s0 : Word
  s1 : Word
  blk : List Word
  cur : Nat
  seeded : Bool
  deriving DecidableEq, Repr

/-- Unit V: its two wide states, its output buffer of `BLOCK_V` wide words, its cursor, which counts items, and its flag
(10_state.md R23, R25, R26, R27, R28). -/
@[ext]
structure UnitV where
  S0 : Wide
  S1 : Wide
  blk : List Wide
  cur : Nat
  seeded : Bool
  deriving DecidableEq, Repr

/-- The one response of a command that does not fault: a DRAW's 64-bit word, or no value (30_encoding.md R90; log entry
6). -/
inductive Response where
  | void
  | data (v : Word)
  deriving DecidableEq, Repr

/-- The whole state. `u`, `b` and `v` are the engine's own (10_state.md R20); `refillsB` and `refillsV` are the
bookkeeping of 10_state.md R44; `cfg`, `cmds` and `rsps` are the model's: the engine's parameters (log entry 1), the
command words the host has still to send, oldest first (log entry 4), and the responses given so far, oldest first (log
entry 6). -/
@[ext]
structure State where
  cfg : Config
  u : UnitU
  b : UnitB
  v : UnitV
  refillsB : Nat
  refillsV : Nat
  cmds : List CmdWord
  rsps : List Response
  deriving DecidableEq, Repr

/-- Why a step ends with no next state. The first three are the spec's complete list of model faults (60_exceptions.md
R232); each is terminal and writes nothing (R231; log entry 7). -/
inductive Fault where
  /-- F_RESERVED: raised by the step itself for a reserved command word, whose top four bits it carries (60_exceptions.md
  R235). Safe: the spec gives such a word no effect. -/
  | reserved (top : BitVec 4)
  /-- F_UNSEEDED(X): raised by DRAW.U, DRAW.B, REFILL.B, DRAW.V and REFILL.V on an unseeded unit (60_exceptions.md R233).
  Safe: the spec calls the behaviour undefined and has the model fault. -/
  | unseeded (x : UnitId)
  /-- F_RESEED(X): raised by SEED.U, SEED.B and SEED.V on a seeded unit under RESEED_POLICY = fault (60_exceptions.md
  R234). Safe: the spec puts a second SEED outside the contract. -/
  | reseed (x : UnitId)
  /-- Raised by DRAW.B and DRAW.V when the cursor names no element of the buffer, a read the spec does not define
  (20_memory.md R56, R57). Safe: no state that meets the cursor and buffer invariants reaches it (log entry 9). -/
  | elementOutsideBuffer (x : UnitId)
  deriving DecidableEq, Repr

/-- Why a step is refused. -/
inductive Refusal where
  /-- Raised by a dispatch arm of an instruction that has no meaning yet; no arm of this model raises it. Safe. -/
  | notModelled (mnemonic : String)
  deriving DecidableEq, Repr

/-- What one step answers. -/
abbrev Result := Host.Outcome State Fault Refusal

/-- The state after reset of the engine with the given parameters: the three flags are 0 (10_state.md R46). The spec
gives every other element no value; here each is zero, which no command that answers a next state reads (R47; log entry
3). The buffers have their built size. -/
def State.resetWith (c : Config) : State where
  cfg := c
  u := ⟨0, 0, false⟩
  b := ⟨0, 0, List.replicate c.blockB.words 0, 0, false⟩
  v := ⟨⟨0, 0⟩, ⟨0, 0⟩, List.replicate c.blockV.words ⟨0, 0⟩, 0, false⟩
  refillsB := 0
  refillsV := 0
  cmds := []
  rsps := []

/-- The parameters of the engine that `State.reset` is the reset of: `W_U = W_B = W_V = 64`, `BLOCK_B = 4`,
`BLOCK_V = 2`, RESEED_POLICY = fault. DESIGN CHOICE of log entry 2: the spec leaves the first five open. -/
def resetConfig : Config where
  wU := .w64
  wB := .w64
  wV := .w64
  blockB := ⟨1⟩
  blockV := ⟨0⟩
  reseed := .fault

/-- The machine right after reset. -/
def State.reset : State := State.resetWith resetConfig

end Sys2Proof.Machine
end

