-- ==== Sys2Proof/Machine/Flags.lean ====
section
/-! DEFINITION. The engine's only flags, one `seeded` bit a unit (10_state.md R28, R29), and the two precondition checks
that read them (60_exceptions.md R233, R234, R239). -/

namespace Sys2Proof.Machine

/-- The flag of a unit (10_state.md R28). -/
def State.seeded (s : State) : UnitId → Bool
  | .u => s.u.seeded
  | .b => s.b.seeded
  | .v => s.v.seeded

/-- End the command with a model fault: nothing is written and no response is given (60_exceptions.md R231). -/
def raiseFault (f : Fault) : Result := .fault f

/-- The first line of DRAW and of REFILL on units B and V: F_UNSEEDED(X) unless the unit is seeded, and otherwise the
command's work (60_exceptions.md R233). -/
def whenSeeded (x : UnitId) (s : State) (work : Result) : Result :=
  if s.seeded x then work else raiseFault (.unseeded x)

/-- The first line of SEED: F_RESEED(X) when the unit is seeded and RESEED_POLICY is `fault`, and otherwise the
command's work; under `reinit` that line is left out (60_exceptions.md R234). -/
def whenSeedAllowed (x : UnitId) (s : State) (work : Result) : Result :=
  if s.seeded x ∧ s.cfg.reseed = .fault then raiseFault (.reseed x) else work

end Sys2Proof.Machine
end

