-- ==== Sys2Proof/Machine/Operands.lean ====
section
/-! DEFINITION. The values a command takes from words and buffers: the width truncation of unit U and the element reads
of units B and V (00_scope.md R11, 20_memory.md R54 to R58). -/

namespace Sys2Proof.Machine

/-- `zext_64(v)`: the response word of a value of `n` bits (00_scope.md R11, 30_encoding.md R90). -/
def zext64 {n : Nat} (x : BitVec n) : Word := x.setWidth 64

/-- `trunc_W(x)`, the low `W` bits (00_scope.md R11, 41_unbuffered.md R134). -/
def truncW (w : Width) (x : Word) : BitVec w.bits := x.setWidth w.bits

/-- Element `j` of a 64-bit word read at width `W`: bits `W*j + W - 1` down to `W*j` (20_memory.md R54). -/
def element (w : Width) (j : Nat) (x : Word) : BitVec w.bits := x.extractLsb' (w.bits * j) w.bits

/-- Lane `l` of a wide word (43_vector.md R181). -/
def laneOf (x : Wide) (l : Nat) : Word := if l = 0 then x.lane0 else x.lane1

/-- `MemRead(BUF_B, e, W)` (20_memory.md R56); no value where the buffer has no such word. -/
def memReadB (blk : List Word) (e : Nat) (w : Width) : Option (BitVec w.bits) :=
  let q := e / w.perWord
  let j := e % w.perWord
  match blk[q]? with
  | some x => some (element w j x)
  | none => none

/-- `MemRead(BUF_V, e, W)` (20_memory.md R57): word `q` of the 64-bit view is lane `q mod N` of wide word `q div N`
(R55). -/
def memReadV (blk : List Wide) (e : Nat) (w : Width) : Option (BitVec w.bits) :=
  let q := e / w.perWord
  let j := e % w.perWord
  let k := q / Config.lanes
  let l := q % Config.lanes
  match blk[k]? with
  | some x => some (element w j (laneOf x l))
  | none => none

end Sys2Proof.Machine
end

