-- ==== Sys2Proof/Machine/Ops.lean ====
section
/-! DEFINITION. The shared operations: the recurrence step and its lane-wise form, the two refill procedures, and the
updates of State that the meanings are made of (40_recurrence.md R110, 43_vector.md R182, R185, 42_buffered.md R152). -/

namespace Sys2Proof.Machine

/-- `Step(m, o) = (m2, out)`: the recurrence on 64-bit words. The shifts are logical and the sum wraps (40_recurrence.md
R110, R115, R117). -/
def recStep (m o : Word) : Word × Word :=
  let t := m ^^^ (m <<< 23)
  let m2 := t ^^^ o ^^^ (t >>> 17) ^^^ (o >>> 26)
  (m2, m2 + o)

/-- `WStep(M, O) = (M2, OUT)`: the recurrence in every lane by itself (43_vector.md R182). -/
def wideStep (M O : Wide) : Wide × Wide :=
  let r0 := recStep M.lane0 O.lane0
  let r1 := recStep M.lane1 O.lane1
  (⟨r0.1, r1.1⟩, ⟨r0.2, r1.2⟩)

/-- `MemWrite(BUF_B, i, 64, x)` (20_memory.md R58). -/
def UnitB.memWrite (b : UnitB) (i : Nat) (x : Word) : UnitB := { b with blk := b.blk.set i x }

/-- `MemWrite(BUF_V, k, 64*N, x)`: every lane of wide word `k` (20_memory.md R58). -/
def UnitV.memWrite (v : UnitV) (k : Nat) (x : Wide) : UnitV := { v with blk := v.blk.set k x }

/-- The first step of an iteration of `Refill_B`: it mutates `s1` and reads `s0` (42_buffered.md R152). -/
def UnitB.stepS1 (b : UnitB) (i : Nat) : UnitB :=
  let r := recStep b.s1 b.s0
  { b with s1 := r.1 }.memWrite i r.2

/-- The second step of an iteration of `Refill_B`: it mutates `s0` and reads the `s1` just written (42_buffered.md
R152). -/
def UnitB.stepS0 (b : UnitB) (i : Nat) : UnitB :=
  let r := recStep b.s0 b.s1
  { b with s0 := r.1 }.memWrite i r.2

/-- The loop of `Refill_B`, from even index `i` on, for the given number of iterations (42_buffered.md R152). -/
def UnitB.refillLoop (b : UnitB) (i : Nat) : Nat → UnitB
  | 0 => b
  | n + 1 => UnitB.refillLoop ((b.stepS1 i).stepS0 (i + 1)) (i + 2) n

/-- `Refill_B()` (42_buffered.md R152). -/
def UnitB.refill (b : UnitB) (k : BlockSize) : UnitB := { b.refillLoop 0 k.pairs with cur := 0 }

/-- The first step of an iteration of `Refill_V`: it mutates `S1` and reads `S0`, in every lane (43_vector.md R185). -/
def UnitV.stepS1 (v : UnitV) (i : Nat) : UnitV :=
  let r := wideStep v.S1 v.S0
  { v with S1 := r.1 }.memWrite i r.2

/-- The second step of an iteration of `Refill_V`: it mutates `S0` and reads the `S1` just written (43_vector.md
R185). -/
def UnitV.stepS0 (v : UnitV) (i : Nat) : UnitV :=
  let r := wideStep v.S0 v.S1
  { v with S0 := r.1 }.memWrite i r.2

/-- The loop of `Refill_V`, from even index `i` on, for the given number of iterations (43_vector.md R185). -/
def UnitV.refillLoop (v : UnitV) (i : Nat) : Nat → UnitV
  | 0 => v
  | n + 1 => UnitV.refillLoop ((v.stepS1 i).stepS0 (i + 1)) (i + 2) n

/-- `Refill_V()` (43_vector.md R185). -/
def UnitV.refill (v : UnitV) (k : BlockSize) : UnitV := { v.refillLoop 0 k.pairs with cur := 0 }

/-- Put unit U's state. -/
def State.putU (s : State) (u : UnitU) : State := { s with u := u }

/-- Put unit B's state. -/
def State.putB (s : State) (b : UnitB) : State := { s with b := b }

/-- Put unit V's state. -/
def State.putV (s : State) (v : UnitV) : State := { s with v := v }

/-- Give the command's one response (30_encoding.md R90, 00_scope.md R14). -/
def State.respond (s : State) (r : Response) : State := { s with rsps := s.rsps ++ [r] }

/-- Run `Refill_B` and count it (42_buffered.md R152, 10_state.md R44). -/
def State.refillB (s : State) : State :=
  { s with b := s.b.refill s.cfg.blockB, refillsB := s.refillsB + 1 }

/-- Run `Refill_V` and count it (43_vector.md R185, 10_state.md R44). -/
def State.refillV (s : State) : State :=
  { s with v := s.v.refill s.cfg.blockV, refillsV := s.refillsV + 1 }

/-- The refill check of DRAW.B: evaluated once, on the cursor before the draw (42_buffered.md R153, R156,
44_sequencing.md R214). -/
def State.refillWhenExhaustedB (s : State) : State := if s.b.cur = s.cfg.itemsB then s.refillB else s

/-- The refill check of DRAW.V (43_vector.md R186, 44_sequencing.md R214). -/
def State.refillWhenExhaustedV (s : State) : State := if s.v.cur = s.cfg.itemsV then s.refillV else s

/-- Read the item at unit B's cursor, step the cursor past it and answer it (42_buffered.md R153, 44_sequencing.md
R215). -/
def State.takeItemB (s : State) : Result :=
  match memReadB s.b.blk s.b.cur s.cfg.wB with
  | some x => .next ((s.putB { s.b with cur := s.b.cur + 1 }).respond (.data (zext64 x)))
  | none => raiseFault (.elementOutsideBuffer .b)

/-- Read the item at unit V's cursor, step the cursor past it and answer it (43_vector.md R186, 44_sequencing.md
R215). -/
def State.takeItemV (s : State) : Result :=
  match memReadV s.v.blk s.v.cur s.cfg.wV with
  | some x => .next ((s.putV { s.v with cur := s.v.cur + 1 }).respond (.data (zext64 x)))
  | none => raiseFault (.elementOutsideBuffer .v)

end Sys2Proof.Machine
end

