-- ==== Sys2Proof/Machine/Buffered.lean ====
section
/-! DEFINITION. The three commands of unit B, the Buffered Generator (42_buffered.md). -/

namespace Sys2Proof.Machine

/-- `SEED.B a, b` (42_buffered.md R151): store the seed, refill, set the flag. -/
def execSeedB (a b : Word) (s : State) : Result :=
  let stored := s.putB { s.b with s0 := a, s1 := b }
  let ready := stored.refillB
  whenSeedAllowed .b s (.next ((ready.putB { ready.b with seeded := true }).respond .void))

/-- `DRAW.B` (42_buffered.md R153): refill when exhausted, then take the item at the cursor. -/
def execDrawB (s : State) : Result := whenSeeded .b s s.refillWhenExhaustedB.takeItemB

/-- `REFILL.B` (42_buffered.md R154). -/
def execRefillB (s : State) : Result := whenSeeded .b s (.next (s.refillB.respond .void))

end Sys2Proof.Machine
end

