-- ==== Sys2Proof/Machine/Unbuffered.lean ====
section
/-! DEFINITION. The three commands of unit U, the Unbuffered Generator (41_unbuffered.md). -/

namespace Sys2Proof.Machine

/-- `SEED.U a, b` (41_unbuffered.md R131). -/
def execSeedU (a b : Word) (s : State) : Result :=
  whenSeedAllowed .u s (.next ((s.putU ⟨a, b, true⟩).respond .void))

/-- `DRAW.U` (41_unbuffered.md R132): the old `s1` is the mutated word, the old `s0` the other. -/
def execDrawU (s : State) : Result :=
  let old0 := s.u.s0
  let old1 := s.u.s1
  let r := recStep old1 old0
  whenSeeded .u s
    (.next ((s.putU { s.u with s0 := r.1, s1 := old0 }).respond (.data (zext64 (truncW s.cfg.wU r.2)))))

/-- `REFILL.U` (41_unbuffered.md R133): it reads and writes no engine state. -/
def execRefillU (s : State) : Result := .next (s.respond .void)

end Sys2Proof.Machine
end

