-- ==== Sys2Proof/Machine/VectorUnit.lean ====
section
/-! DEFINITION. The three commands of unit V, the Vector Generator (43_vector.md). -/

namespace Sys2Proof.Machine

/-- `SEED.V a, b` (43_vector.md R184): `S0` is packed from `(a, b)` and `S1` from `(b, a)`, the first of a pair in lane
0; then refill and set the flag. -/
def execSeedV (a b : Word) (s : State) : Result :=
  let stored := s.putV { s.v with S0 := ⟨a, b⟩, S1 := ⟨b, a⟩ }
  let ready := stored.refillV
  whenSeedAllowed .v s (.next ((ready.putV { ready.v with seeded := true }).respond .void))

/-- `DRAW.V` (43_vector.md R186): refill when exhausted, then take the item at the cursor. -/
def execDrawV (s : State) : Result := whenSeeded .v s s.refillWhenExhaustedV.takeItemV

/-- `REFILL.V` (43_vector.md R187). -/
def execRefillV (s : State) : Result := whenSeeded .v s (.next (s.refillV.respond .void))

end Sys2Proof.Machine
end

