-- ==== Sys2Proof/Machine/Dispatch.lean ====
section
/-! DEFINITION. One arm per command, each one call of its meaning. -/

namespace Sys2Proof.Machine

def exec (i : Instr) (s : State) : Host.Outcome State Fault Refusal :=
  match i with
  | .seedU a b => Sys2Proof.Machine.execSeedU a b s
  | .drawU => Sys2Proof.Machine.execDrawU s
  | .refillU => Sys2Proof.Machine.execRefillU s
  | .seedB a b => Sys2Proof.Machine.execSeedB a b s
  | .drawB => Sys2Proof.Machine.execDrawB s
  | .refillB => Sys2Proof.Machine.execRefillB s
  | .seedV a b => Sys2Proof.Machine.execSeedV a b s
  | .drawV => Sys2Proof.Machine.execDrawV s
  | .refillV => Sys2Proof.Machine.execRefillV s

end Sys2Proof.Machine
end

