-- ==== Sys2Proof/Machine/Step.lean ====
section
/-! DEFINITION. One step of the engine: one whole command (44_sequencing.md R210). -/

namespace Sys2Proof.Machine

/-- Take the oldest command word the host has still to send, decode it and run it; a reserved word is F_RESERVED
(60_exceptions.md R235, R239). With no command waiting the engine is idle and keeps all its state (R249; log entry 5). -/
def step (s : State) : Host.Outcome State Fault Refusal :=
  match s.cmds with
  | [] => .next s
  | w :: rest =>
    match decode w with
    | .command i => exec i { s with cmds := rest }
    | .reserved top => raiseFault (.reserved top)

/-- The state whose next command word is the given one, in the table's numbering of bits; the words already waiting
follow it. It stands for the host putting a command on the port (30_encoding.md R91; log entries 4 and 13). -/
def State.withFetchWord (s : State) (nbits w : Nat) : State := { s with cmds := cmdOfTable nbits w :: s.cmds }

end Sys2Proof.Machine
end

