-- ==== Sys2Proof/Machine/Assembler.lean ====
section
/-! DEFINITION. The textual form of a command (30_encoding.md R92): reading one line of assembler and writing a command
as a line. There are no pseudo-instructions (R93). Text is a list of characters; blanks are spaces and tabs (log entry
15). No step of the machine uses this file. -/

namespace Sys2Proof.Machine

/-- What one line says: nothing (blank or comment), one command, or no command of the syntax. -/
inductive AsmLine where
  | empty
  | command (i : Instr)
  | bad
  deriving DecidableEq, Repr

/-- The line without the comment that `--` starts. -/
def stripComment : List Char → List Char
  | [] => []
  | c :: cs => if c = '-' ∧ cs.head? = some '-' then [] else c :: stripComment cs

/-- A space or a tab. -/
def isBlank (c : Char) : Bool := c == ' ' || c == '\t'

/-- The text without blanks at its ends. -/
def trimBlanks (cs : List Char) : List Char := ((cs.dropWhile isBlank).reverse.dropWhile isBlank).reverse

/-- The value of a digit in the given base. -/
def digitVal (base : Nat) (c : Char) : Option Nat :=
  let k := c.toNat
  let d :=
    if 48 ≤ k ∧ k ≤ 57 then k - 48
    else if 97 ≤ k ∧ k ≤ 102 then k - 87
    else if 65 ≤ k ∧ k ≤ 70 then k - 55
    else base
  if d < base then some d else none

/-- The number that digits continue, most significant digit first. -/
def digitsVal (base acc : Nat) : List Char → Option Nat
  | [] => some acc
  | c :: cs =>
    match digitVal base c with
    | some d => digitsVal base (acc * base + d) cs
    | none => none

/-- An unsigned number in decimal or, with `0x`, in hexadecimal. -/
def parseNumber : List Char → Option Nat
  | [] => none
  | c :: cs =>
    if c = '0' ∧ cs.head? = some 'x' then
      if cs.tail.isEmpty then none else digitsVal 16 0 cs.tail
    else digitsVal 10 0 (c :: cs)

/-- An operand: an unsigned integer below 2^64. -/
def parseOperand (cs : List Char) : Option Word :=
  match parseNumber (trimBlanks cs) with
  | some n => if n < 2 ^ 64 then some (BitVec.ofNat 64 n) else none
  | none => none

/-- The operation a line begins with, and the rest of the line. -/
def parseOp : List Char → Option (OpId × List Char)
  | 'S' :: 'E' :: 'E' :: 'D' :: cs => some (.seed, cs)
  | 'D' :: 'R' :: 'A' :: 'W' :: cs => some (.draw, cs)
  | 'R' :: 'E' :: 'F' :: 'I' :: 'L' :: 'L' :: cs => some (.refill, cs)
  | _ => none

/-- The unit letter after the point, and the rest of the line. -/
def parseUnit : List Char → Option (UnitId × List Char)
  | '.' :: 'U' :: cs => some (.u, cs)
  | '.' :: 'B' :: cs => some (.b, cs)
  | '.' :: 'V' :: cs => some (.v, cs)
  | _ => none

/-- The SEED of a unit. -/
def seedOf (x : UnitId) (a b : Word) : Instr :=
  match x with
  | .u => .seedU a b
  | .b => .seedB a b
  | .v => .seedV a b

/-- The DRAW or REFILL of a unit; SEED has operands. -/
def plainOf (x : UnitId) : OpId → Option Instr
  | .seed => none
  | .draw => match x with
    | .u => some .drawU
    | .b => some .drawB
    | .v => some .drawV
  | .refill => match x with
    | .u => some .refillU
    | .b => some .refillB
    | .v => some .refillV

/-- The two operands of SEED: a blank, then two operands separated by one comma. -/
def parseOperands (cs : List Char) : Option (Word × Word) :=
  match cs with
  | [] => none
  | c :: _ =>
    if isBlank c then
      match parseOperand (cs.takeWhile (· != ',')), cs.dropWhile (· != ',') with
      | some a, _ :: rest => (parseOperand rest).map (fun b => (a, b))
      | _, _ => none
    else none

/-- Read one line of assembler (30_encoding.md R92). -/
def assembleLine (line : List Char) : AsmLine :=
  match trimBlanks (stripComment line) with
  | [] => .empty
  | cs =>
    match parseOp cs with
    | none => .bad
    | some (o, cs1) =>
      match parseUnit cs1 with
      | none => .bad
      | some (x, cs2) =>
        match o with
        | .seed =>
          match parseOperands cs2 with
          | some (a, b) => .command (seedOf x a b)
          | none => .bad
        | _ =>
          if cs2.isEmpty then
            match plainOf x o with
            | some i => .command i
            | none => .bad
          else .bad

/-- One hexadecimal digit. -/
def hexChar (d : Nat) : Char := if d < 10 then Char.ofNat (48 + d) else Char.ofNat (87 + d)

/-- The low hexadecimal digits of a number, most significant first (00_scope.md R9). -/
def hexDigits : Nat → Nat → List Char
  | 0, _ => []
  | n + 1, x => hexDigits n (x / 16) ++ [hexChar (x % 16)]

/-- A word as `0x` and sixteen digits (00_scope.md R9). -/
def wordText (x : Word) : List Char := '0' :: 'x' :: hexDigits 16 x.toNat

/-- The text of a unit's two operands. -/
def operandsText (a b : Word) : List Char := ' ' :: (wordText a ++ (',' :: ' ' :: wordText b))

/-- A command as one line of assembler (30_encoding.md R92). -/
def lineOf : Instr → List Char
  | .seedU a b => ['S', 'E', 'E', 'D', '.', 'U'] ++ operandsText a b
  | .drawU => ['D', 'R', 'A', 'W', '.', 'U']
  | .refillU => ['R', 'E', 'F', 'I', 'L', 'L', '.', 'U']
  | .seedB a b => ['S', 'E', 'E', 'D', '.', 'B'] ++ operandsText a b
  | .drawB => ['D', 'R', 'A', 'W', '.', 'B']
  | .refillB => ['R', 'E', 'F', 'I', 'L', 'L', '.', 'B']
  | .seedV a b => ['S', 'E', 'E', 'D', '.', 'V'] ++ operandsText a b
  | .drawV => ['D', 'R', 'A', 'W', '.', 'V']
  | .refillV => ['R', 'E', 'F', 'I', 'L', 'L', '.', 'V']

end Sys2Proof.Machine
end

