-- ==== Sys2Proof/Safety.lean ====
section
/-! DEFINITION. The terms that statements are made in: the stream of a seed, the invariants of a state, the states of the
source's state machine, and what the host's contract allows. -/

namespace Sys2Proof.Machine

/-! The stream of a seed (41_unbuffered.md R135) -/

/-- `(x_n, y_n)` of the stream of the seed `(a, b)`. -/
def streamPair (a b : Word) : Nat → Word × Word
  | 0 => (a, b)
  | n + 1 => ((recStep (streamPair a b n).2 (streamPair a b n).1).1, (streamPair a b n).1)

/-- `out_(k+1)` of the stream of the seed `(a, b)`; the spec numbers stream words from 1. -/
def streamOut (a b : Word) (k : Nat) : Word := (recStep (streamPair a b k).2 (streamPair a b k).1).2

/-- `n` consecutive stream words, the first of them `out_(start+1)`. -/
def streamBlock (a b : Word) (start n : Nat) : List Word := (List.range n).map (fun k => streamOut a b (start + k))

/-- `n` consecutive wide words whose lane 0 follows the stream of `(a0, b0)` and lane 1 that of `(a1, b1)` (43_vector.md
R188). -/
def wideBlock (a0 b0 a1 b1 : Word) (start n : Nat) : List Wide :=
  (List.range n).map (fun k => ⟨streamOut a0 b0 (start + k), streamOut a1 b1 (start + k)⟩)

/-- Bits `W*j + W - 1` down to `W*j` of a word, zero extended, in plain arithmetic (00_scope.md R10, R11). -/
def bitField (x : Word) (w : Width) (j : Nat) : Word := BitVec.ofNat 64 (x.toNat / 2 ^ (w.bits * j) % 2 ^ w.bits)

/-! Invariants -/

/-- The buffers have their built size and the cursors lie in `[0, item_count]` (10_state.md R24, R25, R26). -/
abbrev State.Inv (s : State) : Prop :=
  s.b.blk.length = s.cfg.blockB.words ∧ s.v.blk.length = s.cfg.blockV.words ∧
    s.b.cur ≤ s.cfg.itemsB ∧ s.v.cur ≤ s.cfg.itemsV

/-- No seeded unit, and no lane of a seeded unit V, holds the all-zero generator state (40_recurrence.md R120). -/
abbrev State.NonzeroWhereSeeded (s : State) : Prop :=
  (s.u.seeded = true → (s.u.s0, s.u.s1) ≠ (0, 0)) ∧ (s.b.seeded = true → (s.b.s0, s.b.s1) ≠ (0, 0)) ∧
    (s.v.seeded = true → (s.v.S0.lane0, s.v.S1.lane0) ≠ (0, 0) ∧ (s.v.S0.lane1, s.v.S1.lane1) ≠ (0, 0))

/-! The source's state machine (10_state.md R30). Seeded-Empty is never seen between commands. -/

/-- The states of the Buffered and Vector generators between commands. -/
inductive Phase where
  | unseeded | ready | exhausted
  deriving DecidableEq, Repr

/-- The cursor of a buffered unit; unit U has none (10_state.md R27). -/
def State.cursor (s : State) : UnitId → Nat
  | .u => 0
  | .b => s.b.cur
  | .v => s.v.cur

/-- The item count of a buffered unit (00_scope.md R7); unit U has no buffer. -/
def State.items (s : State) : UnitId → Nat
  | .u => 0
  | .b => s.cfg.itemsB
  | .v => s.cfg.itemsV

/-- The refills a buffered unit has performed since reset (10_state.md R44). -/
def State.refills (s : State) : UnitId → Nat
  | .u => 0
  | .b => s.refillsB
  | .v => s.refillsV

/-- The state of a buffered unit (the table of 10_state.md R30). -/
def State.phase (s : State) (x : UnitId) : Phase :=
  if s.seeded x then if s.cursor x < s.items x then .ready else .exhausted else .unseeded

/-! Where a unit stands on the stream of its seed -/

/-- Unit B has been seeded with `(a, b)` and has refilled `r` times since: its buffer is the `r`-th block of the stream
and its state words stand at that block's end (42_buffered.md R155). -/
def State.OnStreamB (s : State) (a b : Word) (r : Nat) : Prop :=
  s.b.seeded = true ∧ 1 ≤ r ∧ (s.b.s0, s.b.s1) = streamPair a b (r * s.cfg.blockB.words) ∧
    s.b.blk = streamBlock a b ((r - 1) * s.cfg.blockB.words) s.cfg.blockB.words

/-- The same of unit V: lane 0 on the stream of `(a, b)` and lane 1 on that of `(b, a)` (43_vector.md R188). -/
def State.OnStreamV (s : State) (a b : Word) (r : Nat) : Prop :=
  s.v.seeded = true ∧ 1 ≤ r ∧ (s.v.S0.lane0, s.v.S1.lane0) = streamPair a b (r * s.cfg.blockV.words) ∧
    (s.v.S0.lane1, s.v.S1.lane1) = streamPair b a (r * s.cfg.blockV.words) ∧
    s.v.blk = wideBlock a b b a ((r - 1) * s.cfg.blockV.words) s.cfg.blockV.words

/-- The two lanes of unit V hold the same words everywhere (43_vector.md R190). -/
def State.EqualLanes (s : State) : Prop :=
  s.v.S0.lane0 = s.v.S0.lane1 ∧ s.v.S1.lane0 = s.v.S1.lane1 ∧ ∀ x ∈ s.v.blk, x.lane0 = x.lane1

/-! The host's contract (44_sequencing.md R212, R217) -/

/-- Which units have been seeded. -/
structure SeededFlags where
  u : Bool
  b : Bool
  v : Bool
  deriving DecidableEq, Repr

/-- The flags of a state. -/
def State.flags (s : State) : SeededFlags := ⟨s.u.seeded, s.b.seeded, s.v.seeded⟩

/-- The flag of one unit. -/
def SeededFlags.has (f : SeededFlags) : UnitId → Bool
  | .u => f.u
  | .b => f.b
  | .v => f.v

/-- The flags with one unit seeded. -/
def SeededFlags.seed (f : SeededFlags) : UnitId → SeededFlags
  | .u => { f with u := true }
  | .b => { f with b := true }
  | .v => { f with v := true }

/-- The precondition of a command (the table of 44_sequencing.md R217; for `reinit`, 60_exceptions.md R234). -/
def SeededFlags.allow (f : SeededFlags) (p : ReseedPolicy) (i : Instr) : Bool :=
  match i.op with
  | .seed => !f.has i.unit || p == .reinit
  | .draw => f.has i.unit
  | .refill => i.unit == .u || f.has i.unit

/-- The fault of a command whose precondition is broken (60_exceptions.md R232). -/
def contractFault (i : Instr) : Fault :=
  match i.op with
  | .seed => .reseed i.unit
  | .draw => .unseeded i.unit
  | .refill => .unseeded i.unit

/-- The flags after a command. -/
def SeededFlags.after (f : SeededFlags) (i : Instr) : SeededFlags :=
  match i.op with
  | .seed => f.seed i.unit
  | .draw => f
  | .refill => f

/-- The host keeps its contract over a list of command words: each is one of the nine commands, and its precondition
holds when its turn comes. -/
def SeededFlags.keepsContract (f : SeededFlags) (p : ReseedPolicy) : List CmdWord → Bool
  | [] => true
  | w :: ws =>
    match decode w with
    | .command i => f.allow p i && (f.after i).keepsContract p ws
    | .reserved _ => false

/-- A safe run: the engine takes every command word that waits, and no step faults. -/
def State.runsSafely (s : State) : Prop := ∃ t, Host.Core.run core s.cmds.length s = .next t

/-- The state with the given commands waiting on the port in place of what waits there. -/
def State.sends (s : State) (is : List Instr) : State := { s with cmds := is.map encode }

end Sys2Proof.Machine
end

