-- ==== Sys2Proof/Certificates/Slice0/Obligations.lean ====
section
/-! DEFINITION. The statements for the provers. The docstrings' rule numbers are those of spec/. `State.Inv` is the
spec's own buffer and cursor invariant (10_state.md R24 to R26), itself the subject of two statements here. -/

open Sys2Proof Sys2Proof.Machine

/-! ## Encoding -/

/-- R86 (30_encoding.md): the complete map from the first hexadecimal digit to the command, every other digit reserved,
and the same map as masks and matches over the whole word. -/
def Obligations.FirstDigitSelectsTheCommand : Prop :=
  ∀ (a b : Word) (x : BitVec 128),
    decode (0x1#4 ++ a ++ b) = .command (.seedU a b) ∧ decode (0x2#4 ++ x) = .command .drawU ∧
    decode (0x3#4 ++ x) = .command .refillU ∧ decode (0x5#4 ++ a ++ b) = .command (.seedB a b) ∧
    decode (0x6#4 ++ x) = .command .drawB ∧ decode (0x7#4 ++ x) = .command .refillB ∧
    decode (0x9#4 ++ a ++ b) = .command (.seedV a b) ∧ decode (0xA#4 ++ x) = .command .drawV ∧
    decode (0xB#4 ++ x) = .command .refillV ∧
    (∀ d ∈ [0x0#4, 0x4#4, 0x8#4, 0xC#4, 0xD#4, 0xE#4, 0xF#4], decode (d ++ x) = .reserved d) ∧
    ∀ r ∈ opcodeMap, r.mask = 0xF#4 ++ (0 : BitVec 128) ∧
      ∀ w : CmdWord, w &&& r.mask = r.value ↔ ∃ i, decode w = .command i ∧ i.mnemonic = r.mnemonic

/-- A word is reserved exactly when its `op` is `00` or its `unit` is `11`, and the decoder then gives its top four bits;
every other word is a command (30_encoding.md section 5). -/
def Obligations.ReservedExactlyByUnitAndOp : Prop :=
  ∀ (w : CmdWord) (top : BitVec 4), decode w = .reserved top ↔
    top = w.extractLsb' 128 4 ∧ (w.extractLsb' 128 2 = 0b00#2 ∨ w.extractLsb' 130 2 = 0b11#2)

/-- The decoder undoes the encoder, for every command and all 2^128 operand pairs of SEED (30_encoding.md R81 to
R86). -/
def Obligations.DecodeUndoesEncode : Prop := ∀ i : Instr, i.wf = true → decode (encode i) = .command i

/-- The canonical word of the command that a word decodes to: the word itself for a SEED (R84), the first digit and
zeros for a DRAW or REFILL (R85). -/
def Obligations.EncodeGivesTheCanonicalWord : Prop :=
  ∀ (w : CmdWord) (i : Instr), decode w = .command i →
    (i.op = .seed → encode i = w) ∧ (i.op ≠ .seed → encode i = w.extractLsb' 128 4 ++ (0 : BitVec 128))

/-- R85 (30_encoding.md): the low 128 bits of a DRAW or REFILL word are ignored, any value is accepted, and the canonical
word has them zero. -/
def Obligations.OperandBitsOfDrawAndRefillAreIgnored : Prop :=
  ∀ d ∈ [0x2#4, 0x3#4, 0x6#4, 0x7#4, 0xA#4, 0xB#4], ∃ i, i.op ≠ .seed ∧ i.operands = (0, 0) ∧
    (∀ x : BitVec 128, decode (d ++ x) = .command i) ∧ encode i = d ++ (0 : BitVec 128)

/-- Words written out digit by digit (the worked encodings of 30_encoding.md section 8 and the table of
95_test_vectors.md section 7). -/
def Obligations.WrittenOutWordsDecode : Prop :=
  decode 0x100000000deadbeef00000000cafebabe#132 = .command (.seedU 0xdeadbeef 0xcafebabe) ∧
  decode 0x2ffffffffffffffffffffffffffffffff#132 = .command .drawU ∧
  decode 0x300000000000000000000000000000000#132 = .command .refillU ∧
  decode 0x500000000deadbeef00000000cafebabe#132 = .command (.seedB 0xdeadbeef 0xcafebabe) ∧
  decode 0x6ffffffffffffffff0123456789abcdef#132 = .command .drawB ∧
  decode 0x700000000000000000000000000000000#132 = .command .refillB ∧
  decode 0x900000000000000010000000000000002#132 = .command (.seedV 1 2) ∧
  decode 0xa00000000000000000000000000000000#132 = .command .drawV ∧
  decode 0xb00000000000000000000000000000000#132 = .command .refillV ∧
  decode 0x000000000000000000000000000000000#132 = .reserved 0x0 ∧
  decode 0xd00000000deadbeef00000000cafebabe#132 = .reserved 0xd

/-- Reading the line of text of a command gives the command (30_encoding.md section 8; the text conventions are log entry
15). -/
def Obligations.AssemblerReadsWhatItWrites : Prop := ∀ i : Instr, assembleLine (lineOf i) = .command i

/-! ## Parameters -/

/-- An engine is built exactly when its widths divide 64, its block sizes are even and at least
2 and its lanes are 2; it then has just those parameters; every configuration of the model is one that is built; and no
command changes it (60_exceptions.md section 2, 00_scope.md section 4). -/
def Obligations.EngineIsBuiltExactlyForLegalParameters : Prop :=
  (∀ p : Params, p.build.isSome = true ↔
    (0 < p.wU ∧ p.wU ∣ 64) ∧ (0 < p.wB ∧ p.wB ∣ 64) ∧ (0 < p.wV ∧ p.wV ∣ 64) ∧
      (2 ≤ p.blockB ∧ 2 ∣ p.blockB) ∧ (2 ≤ p.blockV ∧ 2 ∣ p.blockV) ∧ p.lanes = 2) ∧
  (∀ (p : Params) (c : Config), p.build = some c →
    c.wU.bits = p.wU ∧ c.wB.bits = p.wB ∧ c.wV.bits = p.wV ∧ c.blockB.words = p.blockB ∧ c.blockV.words = p.blockV ∧
      c.reseed = p.reseed ∧ c.itemsB = p.blockB * (64 / p.wB) ∧ c.itemsV = p.blockV * 2 * (64 / p.wV)) ∧
  (∀ c : Config, ∃ p : Params, p.wf = true ∧ p.build = some c) ∧
  ∀ s t : State, step s = .next t → t.cfg = s.cfg

/-! ## The recurrence -/

/-- R110 (40_recurrence.md), with the operators as R11 defines them on numbers below 2^64: `x << k` is `x * 2^k mod 2^64`,
`x >> k` is the floor of `x / 2^k`, the sum is taken modulo 2^64. The last line is the rule's worked example. -/
def Obligations.RecurrenceInPlainArithmetic : Prop :=
  (∀ m o : Word,
    let t := m.toNat ^^^ (m.toNat * 2 ^ 23 % 2 ^ 64)
    let m2 := t ^^^ o.toNat ^^^ (t / 2 ^ 17) ^^^ (o.toNat / 2 ^ 26)
    (recStep m o).1.toNat = m2 ∧ (recStep m o).2.toNat = (m2 + o.toNat) % 2 ^ 64) ∧
  recStep 0x00000000cafebabe 0x00000000deadbeef = (0x00657f6ff4fdce99, 0x00657f70d3ab8d88)

/-- The recurrence bit by bit, a bit whose index falls outside 0 to 63 read as 0 (40_recurrence.md section 1, the
bit-by-bit form that the spec derives). -/
def Obligations.RecurrenceBitByBit : Prop :=
  ∀ m o : Word, ∃ t : Word,
    (∀ i, i < 64 → t.getLsbD i = (m.getLsbD i ^^ (decide (23 ≤ i) && m.getLsbD (i - 23)))) ∧
    (∀ i, i < 64 →
      (recStep m o).1.getLsbD i = (t.getLsbD i ^^ o.getLsbD i ^^ t.getLsbD (i + 17) ^^ o.getLsbD (i + 26))) ∧
    (recStep m o).2 = (recStep m o).1 + o

/-- For a fixed other word the map from the mutated word to its new value is a bijection (40_recurrence.md section 4,
the paragraph on invertibility that the spec derives). -/
def Obligations.MutatedWordMapIsABijection : Prop := ∀ o : Word, Function.Bijective (fun m => (recStep m o).1)

/-- A unit, or a lane, that holds a nonzero generator state never comes to hold `(0, 0)`, whatever command runs but a
SEED of the zero pair (40_recurrence.md section 4: "a unit seeded with a nonzero pair never holds `(0, 0)`", an inference
the spec draws). -/
def Obligations.NonzeroGeneratorStateStaysNonzero : Prop :=
  ∀ s t : State, s.NonzeroWhereSeeded →
    (∀ w rest, s.cmds = w :: rest → ∀ i, decode w = .command i → i.op = .seed → i.operands ≠ (0, 0)) →
    step s = .next t → t.NonzeroWhereSeeded

/-- The zero state is a fixed point and its stream is zero for ever; a draw of unit U on it answers 0 and changes no state
word (40_recurrence.md section 4 and 41_unbuffered.md section 2, inferences the spec draws). -/
def Obligations.ZeroSeedGivesZeroForEver : Prop :=
  (∀ k, streamPair 0 0 k = (0, 0) ∧ streamOut 0 0 k = 0) ∧
  ∀ s : State, s.u = ⟨0, 0, true⟩ → exec .drawU s = .next { s with rsps := s.rsps ++ [.data 0] }

/-! ## Unit U -/

/-- R131 (41_unbuffered.md), whole: the encoding, the effect on an unseeded unit, the fault on a seeded one under the
policy the spec fixes, and the zero-seed corner. The next state differs from the old one in unit U and the response
list alone. -/
def Obligations.SeedUStoresThePair : Prop :=
  ∀ (a b : Word) (s : State),
    decode (0x1#4 ++ a ++ b) = .command (.seedU a b) ∧
    (s.u.seeded = false →
      exec (.seedU a b) s = .next { s with u := ⟨a, b, true⟩, rsps := s.rsps ++ [.void] }) ∧
    (s.u.seeded = true → s.cfg.reseed = .fault → exec (.seedU a b) s = .fault (.reseed .u)) ∧
    (s.u = ⟨0, 0, true⟩ → exec .drawU s = .next { s with rsps := s.rsps ++ [.data 0] })

/-- R132 (41_unbuffered.md), whole: the encoding, the fault on an unseeded unit, and one step of the recurrence per draw
with the old `s1` mutated, the words changing places, and the low `W_U` bits answered. -/
def Obligations.DrawUStepsAndSwaps : Prop :=
  ∀ (x : BitVec 128) (s : State),
    decode (0x2#4 ++ x) = .command .drawU ∧
    (s.u.seeded = false → exec .drawU s = .fault (.unseeded .u)) ∧
    (s.u.seeded = true →
      exec .drawU s = .next { s with
        u := ⟨(recStep s.u.s1 s.u.s0).1, s.u.s0, true⟩
        rsps := s.rsps ++ [.data (BitVec.ofNat 64 ((recStep s.u.s1 s.u.s0).2.toNat % 2 ^ s.cfg.wU.bits))] })

/-- R133 (41_unbuffered.md), whole: REFILL.U completes in every state and changes no state of the engine. -/
def Obligations.RefillUChangesNothing : Prop :=
  ∀ (x : BitVec 128) (s : State),
    decode (0x3#4 ++ x) = .command .refillU ∧ exec .refillU s = .next { s with rsps := s.rsps ++ [.void] }

/-- After a seed of unit U, `n` draws answer the first `n` words of the stream, each cut to `W_U` bits, and leave the
stream's `n`-th pair (41_unbuffered.md sections 5 and 6, where the spec derives it). -/
def Obligations.DrawsOfUFollowTheStream : Prop :=
  ∀ (s : State) (a b : Word) (n : Nat), s.u.seeded = false →
    ∃ t, Host.Core.run core (n + 1) (s.sends (.seedU a b :: List.replicate n .drawU)) = .next t ∧
      (t.u.s0, t.u.s1) = streamPair a b n ∧ t.b = s.b ∧ t.v = s.v ∧
      t.rsps = s.rsps ++ .void :: (List.range n).map (fun i => .data (bitField (streamOut a b i) s.cfg.wU 0))

/-! ## Unit B -/

/-- R151 (42_buffered.md), whole: the encoding, the effect on an unseeded unit (the buffer is the first block of the
stream, the state words stand at its end, the cursor is 0), the fault on a seeded one, the zero-seed corner and the worked
example. -/
def Obligations.SeedBStoresThePairAndRefills : Prop :=
  (∀ (a b : Word) (s : State), s.b.blk.length = s.cfg.blockB.words →
    decode (0x5#4 ++ a ++ b) = .command (.seedB a b) ∧
    (s.b.seeded = false →
      exec (.seedB a b) s = .next { s with
        b := ⟨(streamPair a b s.cfg.blockB.words).1, (streamPair a b s.cfg.blockB.words).2,
          streamBlock a b 0 s.cfg.blockB.words, 0, true⟩
        refillsB := s.refillsB + 1
        rsps := s.rsps ++ [.void] }) ∧
    (s.b.seeded = true → s.cfg.reseed = .fault → exec (.seedB a b) s = .fault (.reseed .b))) ∧
  (∀ r n, streamBlock 0 0 (r * n) n = List.replicate n 0) ∧
  streamPair 0xdeadbeef 0xcafebabe 4 = (0x7468cbabbd3333d9, 0xb79573c0d5d38c41) ∧
  streamBlock 0xdeadbeef 0xcafebabe 0 4 =
    [0x00657f70d3ab8d88, 0x006fa8f7e4de4db6, 0xb79f9d48c5b40b5e, 0x2bfe3f6c9306c01a]

/-- R152 (42_buffered.md), whole: the paired applications with alternating roles, the words they write, the cursor, what
the procedure does not read, and the block it reproduces of what unit U would emit from the same pair. -/
def Obligations.RefillBRunsPairedSteps : Prop :=
  ∀ (b : UnitB) (k : BlockSize), b.blk.length = k.words →
    (∃ p q : Nat → Word, p 0 = b.s0 ∧ q 0 = b.s1 ∧
      (∀ i, i < k.words / 2 →
        q (i + 1) = (recStep (q i) (p i)).1 ∧ (b.refill k).blk[2 * i]? = some (recStep (q i) (p i)).2 ∧
        p (i + 1) = (recStep (p i) (q (i + 1))).1 ∧
        (b.refill k).blk[2 * i + 1]? = some (recStep (p i) (q (i + 1))).2) ∧
      (b.refill k).s0 = p (k.words / 2) ∧ (b.refill k).s1 = q (k.words / 2)) ∧
    (b.refill k).cur = 0 ∧ (b.refill k).seeded = b.seeded ∧ (b.refill k).blk.length = k.words ∧
    (∀ blk cur, blk.length = k.words → { b with blk := blk, cur := cur }.refill k = b.refill k) ∧
    (b.refill k).blk = streamBlock b.s0 b.s1 0 k.words

/-- R153 (42_buffered.md), whole: the encoding, the fault on an unseeded unit, the draw that is served from the buffer,
the last item among them, and the draw that finds the buffer exhausted, refills and answers element 0 of the new block. -/
def Obligations.DrawBAnswersTheItemAtTheCursor : Prop :=
  ∀ (x : BitVec 128) (s : State), s.Inv →
    decode (0x6#4 ++ x) = .command .drawB ∧
    (s.b.seeded = false → exec .drawB s = .fault (.unseeded .b)) ∧
    (s.b.seeded = true → s.b.cur < s.cfg.itemsB → ∃ y, s.b.blk[s.b.cur / (64 / s.cfg.wB.bits)]? = some y ∧
      exec .drawB s = .next { s with
        b := { s.b with cur := s.b.cur + 1 }
        rsps := s.rsps ++ [.data (bitField y s.cfg.wB (s.b.cur % (64 / s.cfg.wB.bits)))] }) ∧
    (s.b.seeded = true → s.b.cur = s.cfg.itemsB →
      exec .drawB s = .next { s with
        b := ⟨(streamPair s.b.s0 s.b.s1 s.cfg.blockB.words).1, (streamPair s.b.s0 s.b.s1 s.cfg.blockB.words).2,
          streamBlock s.b.s0 s.b.s1 0 s.cfg.blockB.words, 1, true⟩
        refillsB := s.refillsB + 1
        rsps := s.rsps ++ [.data (bitField (streamOut s.b.s0 s.b.s1 0) s.cfg.wB 0)] })

/-- R154 (42_buffered.md), whole: the encoding, the fault on an unseeded unit, the refill whatever the cursor, and that
the draw after it does not refill again. -/
def Obligations.RefillBRunsAWholeRefill : Prop :=
  ∀ (x : BitVec 128) (s : State), s.b.blk.length = s.cfg.blockB.words →
    decode (0x7#4 ++ x) = .command .refillB ∧
    (s.b.seeded = false → exec .refillB s = .fault (.unseeded .b)) ∧
    (s.b.seeded = true → ∃ t,
      exec .refillB s = .next t ∧
      t = { s with
        b := ⟨(streamPair s.b.s0 s.b.s1 s.cfg.blockB.words).1, (streamPair s.b.s0 s.b.s1 s.cfg.blockB.words).2,
          streamBlock s.b.s0 s.b.s1 0 s.cfg.blockB.words, 0, true⟩
        refillsB := s.refillsB + 1
        rsps := s.rsps ++ [.void] } ∧
      ∃ t', exec .drawB t = .next t' ∧ t'.refillsB = t.refillsB)

/-- R156 (42_buffered.md), whole: the refill is lazy. After any refill `n` draws run no refill while `n` is at most the
item count, and leave the state words as the refill left them; each further block of draws runs exactly one. After a seed
and `n` draws unit B has refilled once and then once more for each whole block of items drawn before the last draw; after
a multiple of the item count it rests exhausted, with the state words its last refill left. -/
def Obligations.RefillOfBIsLazy : Prop :=
  (∀ (s : State) (n : Nat), s.b.blk.length = s.cfg.blockB.words → s.b.seeded = true → s.b.cur = 0 →
    ∃ t, Host.Core.run core n (s.sends (List.replicate n .drawB)) = .next t ∧
      t.refillsB = s.refillsB + (n - 1) / s.cfg.itemsB ∧
      (n ≤ s.cfg.itemsB → t.b = { s.b with cur := n })) ∧
  ∀ (s : State) (a b : Word) (n : Nat), s.b.blk.length = s.cfg.blockB.words → s.b.seeded = false →
    ∃ t, Host.Core.run core (n + 1) (s.sends (.seedB a b :: List.replicate n .drawB)) = .next t ∧
      t.refillsB = s.refillsB + (if n = 0 then 1 else 1 + (n - 1) / s.cfg.itemsB) ∧
      t.b.cur = (if n = 0 then 0 else (n - 1) % s.cfg.itemsB + 1) ∧
      (t.b.s0, t.b.s1) = streamPair a b ((t.refillsB - s.refillsB) * s.cfg.blockB.words) ∧
      (0 < n → n % s.cfg.itemsB = 0 → t.phase .b = .exhausted ∧ t.refillsB = s.refillsB + n / s.cfg.itemsB)

/-- After a seed of unit B and no REFILL.B, draw `n` answers element `(n - 1) mod R_B` of stream word
`floor((n - 1) / R_B) + 1`, low element first (42_buffered.md section 6, where the spec derives it). -/
def Obligations.DrawsOfBFollowTheStream : Prop :=
  ∀ (s : State) (a b : Word) (n : Nat), s.b.blk.length = s.cfg.blockB.words → s.b.seeded = false →
    ∃ t, Host.Core.run core (n + 1) (s.sends (.seedB a b :: List.replicate n .drawB)) = .next t ∧
      t.u = s.u ∧ t.v = s.v ∧
      t.rsps = s.rsps ++ .void :: (List.range n).map (fun i =>
        .data (bitField (streamOut a b (i / (64 / s.cfg.wB.bits))) s.cfg.wB (i % (64 / s.cfg.wB.bits))))

/-- Read at 64 bits, the draws of a seeded unit B answer what the draws of a unit U with the same seed answer, for every
number of draws (42_buffered.md section 6; the source's cross-variant equivalence, 95_test_vectors.md section 1). -/
def Obligations.UnitBReproducesUnitU : Prop :=
  ∀ (s s' : State) (a b : Word) (n : Nat), s.cfg.wU = .w64 → s'.cfg.wB = .w64 → s.u.seeded = false →
    s'.b.seeded = false → s'.b.blk.length = s'.cfg.blockB.words →
    ∃ t t' given, Host.Core.run core (n + 1) (s.sends (.seedU a b :: List.replicate n .drawU)) = .next t ∧
      Host.Core.run core (n + 1) (s'.sends (.seedB a b :: List.replicate n .drawB)) = .next t' ∧
      given.length = n + 1 ∧ t.rsps = s.rsps ++ given ∧ t'.rsps = s'.rsps ++ given

/-- The `r`-th refill since the seed writes the `r`-th block of the stream: every step keeps unit B on its stream, one
block further for each refill the step ran (42_buffered.md section 6, where the spec derives it). Under the policy the
spec fixes no step seeds a seeded unit. -/
def Obligations.EveryStepKeepsBOnItsStream : Prop :=
  ∀ (s t : State) (a b : Word) (r : Nat), s.cfg.reseed = .fault → s.OnStreamB a b r → step s = .next t →
    s.refillsB ≤ t.refillsB ∧ t.OnStreamB a b (r + (t.refillsB - s.refillsB))

/-- An explicit REFILL.B throws the items not yet drawn away: the next draw answers the first item of the following block,
whatever the cursor was (42_buffered.md section 6, where the spec derives it). -/
def Obligations.RefillBDiscardsUnreadItems : Prop :=
  ∀ (s : State) (a b : Word) (r : Nat), s.OnStreamB a b r →
    ∃ t t', exec .refillB s = .next t ∧ exec .drawB t = .next t' ∧ t'.OnStreamB a b (r + 1) ∧ t'.b.cur = 1 ∧
      t'.rsps = s.rsps ++ [.void, .data (bitField (streamOut a b (r * s.cfg.blockB.words)) s.cfg.wB 0)]

/-! ## Unit V -/

/-- R182 (43_vector.md), whole: the recurrence on wide words is the recurrence in every lane, and a lane of the result
depends on that lane of the operands alone. -/
def Obligations.WideStepActsLaneByLane : Prop :=
  ∀ (M O : Wide) (l : Nat), l < 2 →
    (laneOf (wideStep M O).1 l, laneOf (wideStep M O).2 l) = recStep (laneOf M l) (laneOf O l) ∧
    ∀ M' O' : Wide, laneOf M' l = laneOf M l → laneOf O' l = laneOf O l →
      laneOf (wideStep M' O').1 l = laneOf (wideStep M O).1 l ∧ laneOf (wideStep M' O').2 l = laneOf (wideStep M O).2 l

/-- R184 (43_vector.md), whole: the encoding, the effect on an unseeded unit (lane 0 starts at `(a, b)`, lane 1 at
`(b, a)`, then one refill), the fault on a seeded one, the equal-words and zero corners and the worked example. -/
def Obligations.SeedVPacksBothLanesAndRefills : Prop :=
  (∀ (a b : Word) (s : State), s.v.blk.length = s.cfg.blockV.words →
    decode (0x9#4 ++ a ++ b) = .command (.seedV a b) ∧
    (s.v.seeded = false → ∃ t,
      exec (.seedV a b) s = .next t ∧
      t = { s with
        v := ⟨⟨(streamPair a b s.cfg.blockV.words).1, (streamPair b a s.cfg.blockV.words).1⟩,
          ⟨(streamPair a b s.cfg.blockV.words).2, (streamPair b a s.cfg.blockV.words).2⟩,
          wideBlock a b b a 0 s.cfg.blockV.words, 0, true⟩
        refillsV := s.refillsV + 1
        rsps := s.rsps ++ [.void] } ∧ (a = b → t.EqualLanes)) ∧
    (s.v.seeded = true → s.cfg.reseed = .fault → exec (.seedV a b) s = .fault (.reseed .v))) ∧
  (∀ r n, wideBlock 0 0 0 0 (r * n) n = List.replicate n ⟨0, 0⟩) ∧
  (∀ a r n, ∀ x ∈ wideBlock a a a a (r * n) n, x.lane0 = x.lane1) ∧
  streamPair 0xdeadbeef 0xcafebabe 2 = (0x000a2987efe07f1d, 0x00657f6ff4fdce99) ∧
  streamPair 0xcafebabe 0xdeadbeef 2 = (0x000a2987f9391a86, 0x006f56e8c8bcd0f5) ∧
  wideBlock 0xdeadbeef 0xcafebabe 0xcafebabe 0xdeadbeef 0 2 =
    [⟨0x00657f70d3ab8d88, 0x006f56e993bb8bb3⟩, ⟨0x006fa8f7e4de4db6, 0x00798070c1f5eb7b⟩]

/-- R185 (43_vector.md), whole: `BLOCK_V / 2` paired applications of the wide step with alternating roles, the wide words
they write, the cursor, and what the procedure does not read. -/
def Obligations.RefillVRunsPairedWideSteps : Prop :=
  ∀ (v : UnitV) (k : BlockSize), v.blk.length = k.words →
    (∃ p q : Nat → Wide, p 0 = v.S0 ∧ q 0 = v.S1 ∧
      (∀ i, i < k.words / 2 →
        q (i + 1) = (wideStep (q i) (p i)).1 ∧ (v.refill k).blk[2 * i]? = some (wideStep (q i) (p i)).2 ∧
        p (i + 1) = (wideStep (p i) (q (i + 1))).1 ∧
        (v.refill k).blk[2 * i + 1]? = some (wideStep (p i) (q (i + 1))).2) ∧
      (v.refill k).S0 = p (k.words / 2) ∧ (v.refill k).S1 = q (k.words / 2)) ∧
    (v.refill k).cur = 0 ∧ (v.refill k).seeded = v.seeded ∧ (v.refill k).blk.length = k.words ∧
    ∀ blk cur, blk.length = k.words → { v with blk := blk, cur := cur }.refill k = v.refill k

/-- R186 (43_vector.md), whole: as R153 on unit V, with the element order of R57. -/
def Obligations.DrawVAnswersTheItemAtTheCursor : Prop :=
  ∀ (x : BitVec 128) (s : State), s.Inv →
    decode (0xA#4 ++ x) = .command .drawV ∧
    (s.v.seeded = false → exec .drawV s = .fault (.unseeded .v)) ∧
    (s.v.seeded = true → s.v.cur < s.cfg.itemsV → ∃ y, s.v.blk[s.v.cur / (64 / s.cfg.wV.bits) / 2]? = some y ∧
      exec .drawV s = .next { s with
        v := { s.v with cur := s.v.cur + 1 }
        rsps := s.rsps ++ [.data (bitField (if s.v.cur / (64 / s.cfg.wV.bits) % 2 = 0 then y.lane0 else y.lane1)
          s.cfg.wV (s.v.cur % (64 / s.cfg.wV.bits)))] }) ∧
    (s.v.seeded = true → s.v.cur = s.cfg.itemsV →
      exec .drawV s = .next { s with
        v := ⟨⟨(streamPair s.v.S0.lane0 s.v.S1.lane0 s.cfg.blockV.words).1,
            (streamPair s.v.S0.lane1 s.v.S1.lane1 s.cfg.blockV.words).1⟩,
          ⟨(streamPair s.v.S0.lane0 s.v.S1.lane0 s.cfg.blockV.words).2,
            (streamPair s.v.S0.lane1 s.v.S1.lane1 s.cfg.blockV.words).2⟩,
          wideBlock s.v.S0.lane0 s.v.S1.lane0 s.v.S0.lane1 s.v.S1.lane1 0 s.cfg.blockV.words, 1, true⟩
        refillsV := s.refillsV + 1
        rsps := s.rsps ++ [.data (bitField (streamOut s.v.S0.lane0 s.v.S1.lane0 0) s.cfg.wV 0)] })

/-- R187 (43_vector.md), whole: the encoding, the fault on an unseeded unit, and the refill of both lanes whatever the
cursor. -/
def Obligations.RefillVRunsAWholeRefill : Prop :=
  ∀ (x : BitVec 128) (s : State), s.v.blk.length = s.cfg.blockV.words →
    decode (0xB#4 ++ x) = .command .refillV ∧
    (s.v.seeded = false → exec .refillV s = .fault (.unseeded .v)) ∧
    (s.v.seeded = true →
      exec .refillV s = .next { s with
        v := ⟨⟨(streamPair s.v.S0.lane0 s.v.S1.lane0 s.cfg.blockV.words).1,
            (streamPair s.v.S0.lane1 s.v.S1.lane1 s.cfg.blockV.words).1⟩,
          ⟨(streamPair s.v.S0.lane0 s.v.S1.lane0 s.cfg.blockV.words).2,
            (streamPair s.v.S0.lane1 s.v.S1.lane1 s.cfg.blockV.words).2⟩,
          wideBlock s.v.S0.lane0 s.v.S1.lane0 s.v.S0.lane1 s.v.S1.lane1 0 s.cfg.blockV.words, 0, true⟩
        refillsV := s.refillsV + 1
        rsps := s.rsps ++ [.void] })

/-- The `r`-th refill since the seed writes the `r`-th block of the stream of `(a, b)` in lane 0 and of `(b, a)` in lane
1: every step keeps unit V on its two streams (43_vector.md section 6, where the spec derives it). -/
def Obligations.EveryStepKeepsVOnItsStreams : Prop :=
  ∀ (s t : State) (a b : Word) (r : Nat), s.cfg.reseed = .fault → s.OnStreamV a b r → step s = .next t →
    s.refillsV ≤ t.refillsV ∧ t.OnStreamV a b (r + (t.refillsV - s.refillsV))

/-- After a seed of unit V and no REFILL.V, the draws walk the words of the two lanes' streams in turn, all elements of a
lane's word before the next lane's, and the refills stay lazy (43_vector.md section 6, where the spec derives it). -/
def Obligations.DrawsOfVInterleaveTheLanes : Prop :=
  ∀ (s : State) (a b : Word) (n : Nat), s.v.blk.length = s.cfg.blockV.words → s.v.seeded = false →
    ∃ t, Host.Core.run core (n + 1) (s.sends (.seedV a b :: List.replicate n .drawV)) = .next t ∧
      t.u = s.u ∧ t.b = s.b ∧
      t.refillsV = s.refillsV + (if n = 0 then 1 else 1 + (n - 1) / s.cfg.itemsV) ∧
      t.rsps = s.rsps ++ .void :: (List.range n).map (fun e =>
        let q := e / (64 / s.cfg.wV.bits)
        let word := if q % 2 = 0 then streamOut a b (q / 2) else streamOut b a (q / 2)
        .data (bitField word s.cfg.wV (e % (64 / s.cfg.wV.bits))))

/-- Equal lanes stay equal: after SEED.V of two equal words every later step keeps the two lanes the same everywhere
(43_vector.md section 6, where the spec derives it), as long as no other SEED.V reaches the unit. -/
def Obligations.EqualLanesStayEqual : Prop :=
  ∀ s t : State, s.EqualLanes →
    (∀ w rest, s.cmds = w :: rest → ∀ a b, decode w = .command (.seedV a b) → a = b) →
    step s = .next t → t.EqualLanes

/-! ## Buffer storage -/

/-- R56 (20_memory.md), the computation and its domain: element `e` of `BUF_B` at width `W` is bits `W*j + W - 1` down to
`W*j` of word `e div R` with `j = e mod R`; the read is there exactly below the item count. That no command reads past it
is said by DrawBAnswersTheItemAtTheCursor and FaultsAreExactlyTheTable. -/
def Obligations.ElementReadOfBufferB : Prop :=
  ∀ (blk : List Word) (k : BlockSize) (w : Width) (e : Nat), blk.length = k.words →
    ((memReadB blk e w).isSome = true ↔ e < k.words * (64 / w.bits)) ∧
    ∀ x, memReadB blk e w = some x → ∃ y, blk[e / (64 / w.bits)]? = some y ∧
      ∀ i, i < w.bits → x.getLsbD i = y.getLsbD (w.bits * (e % (64 / w.bits)) + i)

/-- R57 (20_memory.md), whole: as R56 in `BUF_V`, word `q = e div R` being lane `q mod 2` of wide word `q div 2`. -/
def Obligations.ElementReadOfBufferV : Prop :=
  ∀ (blk : List Wide) (k : BlockSize) (w : Width) (e : Nat), blk.length = k.words →
    ((memReadV blk e w).isSome = true ↔ e < k.words * 2 * (64 / w.bits)) ∧
    ∀ x, memReadV blk e w = some x → ∃ y, blk[e / (64 / w.bits) / 2]? = some y ∧
      ∀ i, i < w.bits → x.getLsbD i =
        (if e / (64 / w.bits) % 2 = 0 then y.lane0 else y.lane1).getLsbD (w.bits * (e % (64 / w.bits)) + i)

/-- The elements of a word, low element first, hold every bit of it once (20_memory.md section 2, the mixed-width
paragraph that the spec derives): the word is the sum of its elements, each at its place. -/
def Obligations.ElementsHoldTheWholeWord : Prop :=
  ∀ (w : Width) (x : Word),
    x.toNat = ((List.range (64 / w.bits)).map (fun j => (element w j x).toNat * 2 ^ (w.bits * j))).sum

/-- A buffer write sets the one word, or every lane of the one wide word, and leaves every other word and all else of the
unit (20_memory.md section 2, the storing half of its rule on writes). -/
def Obligations.BufferWriteSetsOneWord : Prop :=
  (∀ (b : UnitB) (i j : Nat) (x : Word), i < b.blk.length →
    (b.memWrite i x).blk[j]? = (if j = i then some x else b.blk[j]?) ∧
    { b.memWrite i x with blk := b.blk } = b) ∧
  ∀ (v : UnitV) (i j : Nat) (x : Wide), i < v.blk.length →
    (v.memWrite i x).blk[j]? = (if j = i then some x else v.blk[j]?) ∧
    { v.memWrite i x with blk := v.blk } = v

/-! ## Flags, invariants and the state machine -/

/-- After reset, for every parameter set, the three flags are 0 and both buffered units are Unseeded (10_state.md section
10). That the queues are empty and the refill counts 0 is the model's (log entries 4, 6 and 8); the values of the other
registers (log entry 3) are not stated. -/
def Obligations.ResetLeavesEveryUnitUnseeded : Prop :=
  ∀ c : Config, (∀ x, (State.resetWith c).seeded x = false) ∧ (State.resetWith c).phase .b = .unseeded ∧
    (State.resetWith c).phase .v = .unseeded ∧ (State.resetWith c).cfg = c ∧ (State.resetWith c).cmds = [] ∧
    (State.resetWith c).rsps = []

/-- The state after reset meets the buffer and cursor invariant, for every parameter set (10_state.md section 3; the
cursor's value at reset is the model's, log entry 3). -/
def Obligations.ResetMeetsTheInvariant : Prop := (∀ c : Config, (State.resetWith c).Inv) ∧ State.reset.Inv

/-- Every step keeps the buffers at their built size and the cursors in `[0, item_count]` (10_state.md section 3: "The
source's invariant holds after every command that does not fault"). -/
def Obligations.EveryStepKeepsTheInvariant : Prop := ∀ s t : State, s.Inv → step s = .next t → t.Inv

/-- A flag is set by the unit's SEED, and no step clears it (10_state.md section 4). -/
def Obligations.OnlySeedSetsAFlagAndNothingClearsIt : Prop :=
  ∀ (s t : State) (w : CmdWord) (rest : List CmdWord) (i : Instr), s.cmds = w :: rest → decode w = .command i →
    step s = .next t → ∀ x, t.seeded x = true ↔ s.seeded x = true ∨ (i.op = .seed ∧ i.unit = x)

/-- R159 (42_buffered.md), whole, for units B and V together (R192 of 43_vector.md gives unit V the same machine): every
row of the transition table, with the refills each runs, and the least item counts. -/
def Obligations.BufferedUnitsFollowTheStateMachine : Prop :=
  (∀ (s : State) (x : UnitId) (a b : Word), x ≠ .u → s.Inv →
    (s.phase x = .unseeded → ∃ t, exec (mkInstr x .seed a b) s = .next t ∧ t.phase x = .ready ∧ t.cursor x = 0 ∧
      t.refills x = s.refills x + 1) ∧
    (s.phase x = .unseeded → exec (mkInstr x .draw a b) s = .fault (.unseeded x) ∧
      exec (mkInstr x .refill a b) s = .fault (.unseeded x)) ∧
    (s.phase x = .ready → s.cursor x < s.items x - 1 → ∃ t, exec (mkInstr x .draw a b) s = .next t ∧
      t.phase x = .ready ∧ t.cursor x = s.cursor x + 1 ∧ t.refills x = s.refills x) ∧
    (s.phase x = .ready → s.cursor x = s.items x - 1 → ∃ t, exec (mkInstr x .draw a b) s = .next t ∧
      t.phase x = .exhausted ∧ t.cursor x = s.items x ∧ t.refills x = s.refills x) ∧
    (s.phase x = .exhausted → ∃ t, exec (mkInstr x .draw a b) s = .next t ∧
      t.phase x = .ready ∧ t.cursor x = 1 ∧ t.refills x = s.refills x + 1) ∧
    (s.phase x ≠ .unseeded → ∃ t, exec (mkInstr x .refill a b) s = .next t ∧
      t.phase x = .ready ∧ t.cursor x = 0 ∧ t.refills x = s.refills x + 1) ∧
    (s.phase x ≠ .unseeded → s.cfg.reseed = .fault → exec (mkInstr x .seed a b) s = .fault (.reseed x))) ∧
  (∀ c : Config, 2 ≤ c.itemsB ∧ 4 ≤ c.itemsV) ∧ ∃ c : Config, c.itemsB = 2 ∧ c.itemsV = 4

/-! ## Steps, faults and the contract -/

/-- A step runs the command that the oldest waiting word decodes to, with that word taken off the port (44_sequencing.md
section 1). -/
def Obligations.StepRunsTheDecodedCommand : Prop :=
  ∀ (s : State) (w : CmdWord) (rest : List CmdWord) (i : Instr), s.cmds = w :: rest → decode w = .command i →
    step s = exec i { s with cmds := rest }

/-- With no command waiting a step changes nothing. That an idle engine takes a step at all is the model's choice (log
entry 5); the spec's sentence is "an idle engine keeps all its state until the next command or reset" (60_exceptions.md
section 7). -/
def Obligations.IdleEngineKeepsItsState : Prop := ∀ s : State, s.cmds = [] → step s = .next s

/-- R235 (60_exceptions.md), whole: a word whose `op` is `00` or whose `unit` is `11` raises F_RESERVED. -/
def Obligations.ReservedWordFaults : Prop :=
  ∀ (s : State) (w : CmdWord) (rest : List CmdWord), s.cmds = w :: rest →
    (w.extractLsb' 128 2 = 0b00#2 ∨ w.extractLsb' 130 2 = 0b11#2) →
    step s = .fault (.reserved (w.extractLsb' 128 4))

/-- R232 (60_exceptions.md), whole: the complete list of faults. From a state that meets the invariant a step that takes a
word faults exactly in the three rows of the table, with the row's information, and is never refused. -/
def Obligations.FaultsAreExactlyTheTable : Prop :=
  ∀ (s : State) (w : CmdWord) (rest : List CmdWord), s.Inv → s.cmds = w :: rest →
    (∀ f : Fault, step s = .fault f ↔
      ((w.extractLsb' 128 2 = 0b00#2 ∨ w.extractLsb' 130 2 = 0b11#2) ∧ f = .reserved (w.extractLsb' 128 4)) ∨
      (∃ i, decode w = .command i ∧ (i = .drawU ∨ i = .drawB ∨ i = .refillB ∨ i = .drawV ∨ i = .refillV) ∧
        s.seeded i.unit = false ∧ f = .unseeded i.unit) ∨
      (∃ i, decode w = .command i ∧ i.op = .seed ∧ s.seeded i.unit = true ∧ s.cfg.reseed = .fault ∧
        f = .reseed i.unit)) ∧
    ∀ r : Refusal, step s ≠ .refused r

/-- A command completes exactly when its precondition holds, and otherwise raises its fault. Under the policy `fault` the
precondition is that of the table (44_sequencing.md section 5); under the optional policy `reinit`, which the model offers
by its own choice (log entry 11; 60_exceptions.md section 2), a SEED has none. -/
def Obligations.CommandCompletesExactlyWhenAllowed : Prop :=
  ∀ (s : State) (i : Instr), s.Inv →
    ((∃ t, exec i s = .next t) ↔ s.flags.allow s.cfg.reseed i = true) ∧
    (s.flags.allow s.cfg.reseed i = false → exec i s = .fault (contractFault i))

/-- A run over all the waiting words is free of faults exactly when the host keeps its contract: every word is a command,
no unit is drawn from or (units B and V) refilled before its seed, and no unit is seeded twice under the policy `fault`
(44_sequencing.md section 1, 60_exceptions.md section 2). The case of the policy `reinit`, where a second SEED is allowed,
rests on the model's choice to offer it (log entry 11). -/
def Obligations.RunIsSafeExactlyWhenTheHostKeepsItsContract : Prop :=
  ∀ s : State, s.Inv → (s.runsSafely ↔ s.flags.keepsContract s.cfg.reseed s.cmds = true)

/-- A command that does not fault gives exactly one response; a DRAW's is a word whose bits
above the unit's width are 0, a SEED's and a REFILL's carries no value (30_encoding.md section 7). -/
def Obligations.EveryCommandGivesOneResponse : Prop :=
  ∀ (s t : State) (i : Instr), exec i s = .next t → ∃ r, t.rsps = s.rsps ++ [r] ∧ t.cmds = s.cmds ∧
    (i.op ≠ .draw → r = .void) ∧
    (i.op = .draw → ∃ v : Word, r = .data v ∧
      v.toNat < 2 ^ (match i.unit with | .u => s.cfg.wU.bits | .b => s.cfg.wB.bits | .v => s.cfg.wV.bits))

/-- A safe run takes every waiting word and answers the words in the order they were sent: the `k`-th response is the one
that the `k`-th word's command gives in the state that the words before it left, when the responses so far are those of the
words before it (44_sequencing.md section 1). -/
def Obligations.RunAnswersEveryCommandInOrder : Prop :=
  ∀ s t : State, Host.Core.run core s.cmds.length s = .next t →
    t.cmds = [] ∧ ∃ given, t.rsps = s.rsps ++ given ∧ given.length = s.cmds.length ∧
      ∀ k w, s.cmds[k]? = some w → ∃ before i after r,
        Host.Core.run core k s = .next before ∧ before.cmds = w :: s.cmds.drop (k + 1) ∧
        before.rsps = s.rsps ++ given.take k ∧ decode w = .command i ∧
        exec i { before with cmds := s.cmds.drop (k + 1) } = .next after ∧ after.rsps = before.rsps ++ [r] ∧
        given[k]? = some r

/-- The frame of every command: a command leaves the other units whole, with their refill counts, and the parameters; a
REFILL.U leaves its own unit too, and a DRAW or REFILL leaves every flag (10_state.md section 1 and the table of section
9). -/
def Obligations.CommandLeavesOtherUnitsAlone : Prop :=
  ∀ (s t : State) (i : Instr), exec i s = .next t →
    (i.unit ≠ .u ∨ i = .refillU → t.u = s.u) ∧
    (i.unit ≠ .b → t.b = s.b ∧ t.refillsB = s.refillsB) ∧
    (i.unit ≠ .v → t.v = s.v ∧ t.refillsV = s.refillsV) ∧
    (i.op ≠ .seed → ∀ x, t.seeded x = s.seeded x) ∧ t.cfg = s.cfg ∧ t.cmds = s.cmds ∧
    ∃ r, t.rsps = s.rsps ++ [r]

/-- A command addressed to one unit neither reads nor writes any state of another (10_state.md section 1). Two states that
agree on the addressed unit and the parameters give the same outcome: the same fault, or the same new state of that unit
and the same response, whatever the other units hold; and the other units are left as they are. -/
def Obligations.UnitsShareNoState : Prop :=
  ∀ (s s' : State) (i : Instr), s.cfg = s'.cfg →
    (i.unit = .u → s.u = s'.u) → (i.unit = .b → s.b = s'.b) → (i.unit = .v → s.v = s'.v) →
    (∀ f, exec i s = .fault f → exec i s' = .fault f) ∧
    ∀ t, exec i s = .next t → ∃ t' r, exec i s' = .next t' ∧ t.rsps = s.rsps ++ [r] ∧ t'.rsps = s'.rsps ++ [r] ∧
      (i.unit = .u → t.u = t'.u ∧ t.b = s.b ∧ t.v = s.v ∧ t'.b = s'.b ∧ t'.v = s'.v) ∧
      (i.unit = .b → t.b = t'.b ∧ t.u = s.u ∧ t.v = s.v ∧ t'.u = s'.u ∧ t'.v = s'.v) ∧
      (i.unit = .v → t.v = t'.v ∧ t.u = s.u ∧ t.b = s.b ∧ t'.u = s'.u ∧ t'.b = s'.b)

/-- Commands to different units commute: in either order both complete, each gives the response it would have given
first, and the engine ends in the same state, the order of the two responses apart (44_sequencing.md section 1, where the
spec derives it). -/
def Obligations.CommandsToDifferentUnitsCommute : Prop :=
  ∀ (s s1 s12 : State) (i j : Instr), i.unit ≠ j.unit → exec i s = .next s1 → exec j s1 = .next s12 →
    ∃ s2 s21 ri rj, exec j s = .next s2 ∧ exec i s2 = .next s21 ∧
      s12.rsps = s.rsps ++ [ri, rj] ∧ s21.rsps = s.rsps ++ [rj, ri] ∧ { s21 with rsps := s12.rsps } = s12

/-- R234 (60_exceptions.md), whole: a second SEED raises F_RESEED under the policy `fault`; under the optional policy
`reinit` the unit's state becomes exactly that of a freshly reset unit that received the same SEED. -/
def Obligations.SecondSeedFollowsThePolicy : Prop :=
  ∀ (s : State) (x : UnitId) (a b : Word), s.Inv → s.seeded x = true →
    (s.cfg.reseed = .fault → exec (mkInstr x .seed a b) s = .fault (.reseed x)) ∧
    (s.cfg.reseed = .reinit → ∃ t t0, exec (mkInstr x .seed a b) s = .next t ∧
      exec (mkInstr x .seed a b) (State.resetWith s.cfg) = .next t0 ∧
      (x = .u → t.u = t0.u) ∧ (x = .b → t.b = t0.b) ∧ (x = .v → t.v = t0.v))
end

