-- ==== Sys2Proof/Laws/Config.lean ====
section
/-! SUPPORT. The small lemmas of the parameters: every block size is even and at least 2, every width divides 64, every
legal number is one of them, and no item count is zero. -/

namespace Sys2Proof

theorem BlockSize.words_eq (k : BlockSize) : k.words = 2 * k.pairs := rfl

theorem BlockSize.words_pos (k : BlockSize) : 0 < k.words := by
  simp [BlockSize.words, BlockSize.pairs]

theorem BlockSize.two_le_words (k : BlockSize) : 2 ≤ k.words := by
  simp only [BlockSize.words, BlockSize.pairs]
  omega

theorem BlockSize.words_even (k : BlockSize) : k.words % 2 = 0 := by
  simp only [BlockSize.words]
  omega

theorem Width.bits_pos (w : Width) : 0 < w.bits := by cases w <;> decide

theorem Width.bits_le (w : Width) : w.bits ≤ 64 := by cases w <;> decide

theorem Width.perWord_pos (w : Width) : 0 < w.perWord := by cases w <;> decide

theorem Width.bits_mul_perWord (w : Width) : w.bits * w.perWord = 64 := by cases w <;> decide

theorem Config.itemsB_pos (c : Config) : 0 < c.itemsB := Nat.mul_pos c.blockB.words_pos c.wB.perWord_pos

theorem Config.itemsV_pos (c : Config) : 0 < c.itemsV :=
  Nat.mul_pos (Nat.mul_pos c.blockV.words_pos (by decide)) c.wV.perWord_pos

end Sys2Proof
end

