-- ==== Sys2Proof/Laws/Decode.lean ====
section
/-! SUPPORT. The field lemmas of command words: what the decoder's field functions read from a packed word. -/

namespace Sys2Proof

theorem packCmd_getLsbD (x o : BitVec 2) (a b : Word) (i : Nat) :
    (packCmd x o a b).getLsbD i =
      if i < 64 then b.getLsbD i else if i < 128 then a.getLsbD (i - 64)
      else if i < 130 then o.getLsbD (i - 128) else x.getLsbD (i - 130) := by
  have h : packCmd x o a b = x ++ o ++ a ++ b := rfl
  rw [h, BitVec.getLsbD_append, BitVec.getLsbD_append, BitVec.getLsbD_append]
  simp only [Nat.sub_sub, show i - 64 < 64 ↔ i < 128 by omega, show i - (64 + 64) < 2 ↔ i < 130 by omega]

theorem cmdUnit_packCmd (x o : BitVec 2) (a b : Word) : cmdUnit (packCmd x o a b) = x := by
  apply BitVec.eq_of_getLsbD_eq
  intro i hi
  rw [cmdUnit, BitVec.getLsbD_extractLsb', packCmd_getLsbD, if_neg (by omega), if_neg (by omega), if_neg (by omega),
    show 130 + i - 130 = i by omega]
  simp [hi]

theorem cmdOp_packCmd (x o : BitVec 2) (a b : Word) : cmdOp (packCmd x o a b) = o := by
  apply BitVec.eq_of_getLsbD_eq
  intro i hi
  rw [cmdOp, BitVec.getLsbD_extractLsb', packCmd_getLsbD, if_neg (by omega), if_neg (by omega), if_pos (by omega),
    show 128 + i - 128 = i by omega]
  simp [hi]

theorem cmdA_packCmd (x o : BitVec 2) (a b : Word) : cmdA (packCmd x o a b) = a := by
  apply BitVec.eq_of_getLsbD_eq
  intro i hi
  rw [cmdA, BitVec.getLsbD_extractLsb', packCmd_getLsbD, if_neg (by omega), if_pos (by omega),
    show 64 + i - 64 = i by omega]
  simp [hi]

theorem cmdB_packCmd (x o : BitVec 2) (a b : Word) : cmdB (packCmd x o a b) = b := by
  apply BitVec.eq_of_getLsbD_eq
  intro i hi
  rw [cmdB, BitVec.getLsbD_extractLsb', packCmd_getLsbD, if_pos (by omega), Nat.zero_add]
  simp [hi]

/-- A command word is its four fields. -/
theorem packCmd_fields (w : CmdWord) : packCmd (cmdUnit w) (cmdOp w) (cmdA w) (cmdB w) = w := by
  apply BitVec.eq_of_getLsbD_eq
  intro i hi
  rw [packCmd_getLsbD, cmdUnit, cmdOp, cmdA, cmdB]
  simp only [BitVec.getLsbD_extractLsb']
  split
  · rename_i h
    simp [h]
  · split
    · rename_i h1 h2
      simp [show i - 64 < 64 by omega, show 64 + (i - 64) = i by omega]
    · split
      · rename_i h1 h2 h3
        simp [show i - 128 < 2 by omega, show 128 + (i - 128) = i by omega]
      · rename_i h1 h2 h3
        simp [show i - 130 < 2 by omega, show 130 + (i - 130) = i by omega]

/-- The decoder on a packed word reads the two code fields, and the operand words where the operation takes them. -/
theorem decode_packCmd (x o : BitVec 2) (a b : Word) :
    decode (packCmd x o a b) =
      match decodeUnit x, decodeOp o with
      | some y, some p => .command (mkInstr y p a b)
      | _, _ => .reserved (cmdTop (packCmd x o a b)) := by
  unfold decode
  rw [cmdUnit_packCmd, cmdOp_packCmd, cmdA_packCmd, cmdB_packCmd] <;> rfl

/-- A word written as its first hexadecimal digit and 128 further bits. -/
theorem digit_append_eq_packCmd (d : BitVec 4) (x : BitVec 128) :
    (d ++ x : CmdWord) =
      packCmd (d.extractLsb' 2 2) (d.extractLsb' 0 2) (x.extractLsb' 64 64) (x.extractLsb' 0 64) := by
  apply BitVec.eq_of_getLsbD_eq
  intro i hi
  have h : (d ++ x : CmdWord).getLsbD i = if i < 128 then x.getLsbD i else d.getLsbD (i - 128) := BitVec.getLsbD_append
  rw [packCmd_getLsbD, h]
  simp only [BitVec.getLsbD_extractLsb']
  by_cases h1 : i < 64
  · simp [h1, show i < 128 by omega]
  · by_cases h2 : i < 128
    · simp [h1, h2, show i - 64 < 64 by omega, show 64 + (i - 64) = i by omega]
    · by_cases h3 : i < 130
      · simp [h1, h2, h3, show i - 128 < 2 by omega]
      · simp [h1, h2, h3, show i - 130 < 2 by omega, show 2 + (i - 130) = i - 128 by omega]

/-- A word written as its first hexadecimal digit and its two operand words. -/
theorem digit_operands_eq_packCmd (d : BitVec 4) (a b : Word) :
    (d ++ a ++ b : CmdWord) = packCmd (d.extractLsb' 2 2) (d.extractLsb' 0 2) a b := by
  apply BitVec.eq_of_getLsbD_eq
  intro i hi
  have h : (d ++ a ++ b : CmdWord).getLsbD i = if i < 64 then b.getLsbD i else (d ++ a).getLsbD (i - 64) :=
    BitVec.getLsbD_append
  rw [packCmd_getLsbD, h, BitVec.getLsbD_append]
  simp only [BitVec.getLsbD_extractLsb']
  by_cases h1 : i < 64
  · simp [h1]
  · by_cases h2 : i < 128
    · simp [h1, h2, show i - 64 < 64 by omega]
    · by_cases h3 : i < 130
      · simp [h1, h2, h3, show i - 128 < 2 by omega, show ¬i - 64 < 64 by omega, show i - 64 - 64 = i - 128 by omega]
      · simp [h1, h2, h3, show i - 130 < 2 by omega, show ¬i - 64 < 64 by omega,
          show 2 + (i - 130) = i - 64 - 64 by omega]

/-- The first hexadecimal digit of a packed word is its two code fields. -/
theorem cmdTop_packCmd (x o : BitVec 2) (a b : Word) : cmdTop (packCmd x o a b) = x ++ o := by
  apply BitVec.eq_of_getLsbD_eq
  intro i hi
  have h : (x ++ o : BitVec 4).getLsbD i = if i < 2 then o.getLsbD i else x.getLsbD (i - 2) := BitVec.getLsbD_append
  rw [cmdTop, BitVec.getLsbD_extractLsb', packCmd_getLsbD, h]
  by_cases h2 : i < 2
  · simp [h2, show i < 4 by omega, show 128 + i < 130 by omega, show ¬128 + i < 64 by omega]
  · simp [h2, hi, show 128 + i - 130 = i - 2 by omega, show ¬128 + i < 130 by omega, show ¬128 + i < 64 by omega]

/-- The reserved value of the field `unit` (30_encoding.md R82). -/
theorem decodeUnit_eq_none (x : BitVec 2) : decodeUnit x = none ↔ x = 0b11#2 := by revert x; decide

/-- The reserved value of the field `op` (30_encoding.md R83). -/
theorem decodeOp_eq_none (x : BitVec 2) : decodeOp x = none ↔ x = 0b00#2 := by revert x; decide

theorem decodeUnit_code (x : UnitId) : decodeUnit x.code = some x := by cases x <;> rfl

theorem decodeOp_code (o : OpId) : decodeOp o.code = some o := by cases o <;> rfl

end Sys2Proof
end

