-- ==== Sys2Proof/Laws/State.lean ====
section
/-! SUPPORT. One lemma per field per update of State, so that no later proof unfolds a record update. -/

namespace Sys2Proof.Machine

@[simp] theorem State.putU_cfg (s : State) (x : UnitU) : (s.putU x).cfg = s.cfg := rfl
@[simp] theorem State.putU_u (s : State) (x : UnitU) : (s.putU x).u = x := rfl
@[simp] theorem State.putU_b (s : State) (x : UnitU) : (s.putU x).b = s.b := rfl
@[simp] theorem State.putU_v (s : State) (x : UnitU) : (s.putU x).v = s.v := rfl
@[simp] theorem State.putU_refillsB (s : State) (x : UnitU) : (s.putU x).refillsB = s.refillsB := rfl
@[simp] theorem State.putU_refillsV (s : State) (x : UnitU) : (s.putU x).refillsV = s.refillsV := rfl
@[simp] theorem State.putU_cmds (s : State) (x : UnitU) : (s.putU x).cmds = s.cmds := rfl
@[simp] theorem State.putU_rsps (s : State) (x : UnitU) : (s.putU x).rsps = s.rsps := rfl

@[simp] theorem State.putB_cfg (s : State) (x : UnitB) : (s.putB x).cfg = s.cfg := rfl
@[simp] theorem State.putB_u (s : State) (x : UnitB) : (s.putB x).u = s.u := rfl
@[simp] theorem State.putB_b (s : State) (x : UnitB) : (s.putB x).b = x := rfl
@[simp] theorem State.putB_v (s : State) (x : UnitB) : (s.putB x).v = s.v := rfl
@[simp] theorem State.putB_refillsB (s : State) (x : UnitB) : (s.putB x).refillsB = s.refillsB := rfl
@[simp] theorem State.putB_refillsV (s : State) (x : UnitB) : (s.putB x).refillsV = s.refillsV := rfl
@[simp] theorem State.putB_cmds (s : State) (x : UnitB) : (s.putB x).cmds = s.cmds := rfl
@[simp] theorem State.putB_rsps (s : State) (x : UnitB) : (s.putB x).rsps = s.rsps := rfl

@[simp] theorem State.putV_cfg (s : State) (x : UnitV) : (s.putV x).cfg = s.cfg := rfl
@[simp] theorem State.putV_u (s : State) (x : UnitV) : (s.putV x).u = s.u := rfl
@[simp] theorem State.putV_b (s : State) (x : UnitV) : (s.putV x).b = s.b := rfl
@[simp] theorem State.putV_v (s : State) (x : UnitV) : (s.putV x).v = x := rfl
@[simp] theorem State.putV_refillsB (s : State) (x : UnitV) : (s.putV x).refillsB = s.refillsB := rfl
@[simp] theorem State.putV_refillsV (s : State) (x : UnitV) : (s.putV x).refillsV = s.refillsV := rfl
@[simp] theorem State.putV_cmds (s : State) (x : UnitV) : (s.putV x).cmds = s.cmds := rfl
@[simp] theorem State.putV_rsps (s : State) (x : UnitV) : (s.putV x).rsps = s.rsps := rfl

@[simp] theorem State.respond_cfg (s : State) (r : Response) : (s.respond r).cfg = s.cfg := rfl
@[simp] theorem State.respond_u (s : State) (r : Response) : (s.respond r).u = s.u := rfl
@[simp] theorem State.respond_b (s : State) (r : Response) : (s.respond r).b = s.b := rfl
@[simp] theorem State.respond_v (s : State) (r : Response) : (s.respond r).v = s.v := rfl
@[simp] theorem State.respond_refillsB (s : State) (r : Response) : (s.respond r).refillsB = s.refillsB := rfl
@[simp] theorem State.respond_refillsV (s : State) (r : Response) : (s.respond r).refillsV = s.refillsV := rfl
@[simp] theorem State.respond_cmds (s : State) (r : Response) : (s.respond r).cmds = s.cmds := rfl
@[simp] theorem State.respond_rsps (s : State) (r : Response) : (s.respond r).rsps = s.rsps ++ [r] := rfl

@[simp] theorem State.refillB_cfg (s : State) : (s.refillB).cfg = s.cfg := rfl
@[simp] theorem State.refillB_u (s : State) : (s.refillB).u = s.u := rfl
@[simp] theorem State.refillB_b (s : State) : (s.refillB).b = s.b.refill s.cfg.blockB := rfl
@[simp] theorem State.refillB_v (s : State) : (s.refillB).v = s.v := rfl
@[simp] theorem State.refillB_refillsB (s : State) : (s.refillB).refillsB = s.refillsB + 1 := rfl
@[simp] theorem State.refillB_refillsV (s : State) : (s.refillB).refillsV = s.refillsV := rfl
@[simp] theorem State.refillB_cmds (s : State) : (s.refillB).cmds = s.cmds := rfl
@[simp] theorem State.refillB_rsps (s : State) : (s.refillB).rsps = s.rsps := rfl

@[simp] theorem State.refillV_cfg (s : State) : (s.refillV).cfg = s.cfg := rfl
@[simp] theorem State.refillV_u (s : State) : (s.refillV).u = s.u := rfl
@[simp] theorem State.refillV_b (s : State) : (s.refillV).b = s.b := rfl
@[simp] theorem State.refillV_v (s : State) : (s.refillV).v = s.v.refill s.cfg.blockV := rfl
@[simp] theorem State.refillV_refillsB (s : State) : (s.refillV).refillsB = s.refillsB := rfl
@[simp] theorem State.refillV_refillsV (s : State) : (s.refillV).refillsV = s.refillsV + 1 := rfl
@[simp] theorem State.refillV_cmds (s : State) : (s.refillV).cmds = s.cmds := rfl
@[simp] theorem State.refillV_rsps (s : State) : (s.refillV).rsps = s.rsps := rfl

/-! Units: the fields a buffer write and a refill step touch -/

@[simp] theorem UnitB.memWrite_s0 (x : UnitB) (i : Nat) (w : Word) : (x.memWrite i w).s0 = x.s0 := rfl
@[simp] theorem UnitB.memWrite_s1 (x : UnitB) (i : Nat) (w : Word) : (x.memWrite i w).s1 = x.s1 := rfl
@[simp] theorem UnitB.memWrite_blk (x : UnitB) (i : Nat) (w : Word) : (x.memWrite i w).blk = x.blk.set i w := rfl
@[simp] theorem UnitB.memWrite_cur (x : UnitB) (i : Nat) (w : Word) : (x.memWrite i w).cur = x.cur := rfl
@[simp] theorem UnitB.memWrite_seeded (x : UnitB) (i : Nat) (w : Word) : (x.memWrite i w).seeded = x.seeded := rfl
@[simp] theorem UnitB.stepS1_s0 (x : UnitB) (i : Nat) : (x.stepS1 i).s0 = x.s0 := rfl
@[simp] theorem UnitB.stepS1_s1 (x : UnitB) (i : Nat) : (x.stepS1 i).s1 = (recStep x.s1 x.s0).1 := rfl
@[simp] theorem UnitB.stepS1_blk (x : UnitB) (i : Nat) : (x.stepS1 i).blk = x.blk.set i (recStep x.s1 x.s0).2 := rfl
@[simp] theorem UnitB.stepS1_cur (x : UnitB) (i : Nat) : (x.stepS1 i).cur = x.cur := rfl
@[simp] theorem UnitB.stepS1_seeded (x : UnitB) (i : Nat) : (x.stepS1 i).seeded = x.seeded := rfl
@[simp] theorem UnitB.stepS0_s0 (x : UnitB) (i : Nat) : (x.stepS0 i).s0 = (recStep x.s0 x.s1).1 := rfl
@[simp] theorem UnitB.stepS0_s1 (x : UnitB) (i : Nat) : (x.stepS0 i).s1 = x.s1 := rfl
@[simp] theorem UnitB.stepS0_blk (x : UnitB) (i : Nat) : (x.stepS0 i).blk = x.blk.set i (recStep x.s0 x.s1).2 := rfl
@[simp] theorem UnitB.stepS0_cur (x : UnitB) (i : Nat) : (x.stepS0 i).cur = x.cur := rfl
@[simp] theorem UnitB.stepS0_seeded (x : UnitB) (i : Nat) : (x.stepS0 i).seeded = x.seeded := rfl

@[simp] theorem UnitV.memWrite_S0 (x : UnitV) (i : Nat) (w : Wide) : (x.memWrite i w).S0 = x.S0 := rfl
@[simp] theorem UnitV.memWrite_S1 (x : UnitV) (i : Nat) (w : Wide) : (x.memWrite i w).S1 = x.S1 := rfl
@[simp] theorem UnitV.memWrite_blk (x : UnitV) (i : Nat) (w : Wide) : (x.memWrite i w).blk = x.blk.set i w := rfl
@[simp] theorem UnitV.memWrite_cur (x : UnitV) (i : Nat) (w : Wide) : (x.memWrite i w).cur = x.cur := rfl
@[simp] theorem UnitV.memWrite_seeded (x : UnitV) (i : Nat) (w : Wide) : (x.memWrite i w).seeded = x.seeded := rfl
@[simp] theorem UnitV.stepS1_S0 (x : UnitV) (i : Nat) : (x.stepS1 i).S0 = x.S0 := rfl
@[simp] theorem UnitV.stepS1_S1 (x : UnitV) (i : Nat) : (x.stepS1 i).S1 = (wideStep x.S1 x.S0).1 := rfl
@[simp] theorem UnitV.stepS1_blk (x : UnitV) (i : Nat) : (x.stepS1 i).blk = x.blk.set i (wideStep x.S1 x.S0).2 := rfl
@[simp] theorem UnitV.stepS1_cur (x : UnitV) (i : Nat) : (x.stepS1 i).cur = x.cur := rfl
@[simp] theorem UnitV.stepS1_seeded (x : UnitV) (i : Nat) : (x.stepS1 i).seeded = x.seeded := rfl
@[simp] theorem UnitV.stepS0_S0 (x : UnitV) (i : Nat) : (x.stepS0 i).S0 = (wideStep x.S0 x.S1).1 := rfl
@[simp] theorem UnitV.stepS0_S1 (x : UnitV) (i : Nat) : (x.stepS0 i).S1 = x.S1 := rfl
@[simp] theorem UnitV.stepS0_blk (x : UnitV) (i : Nat) : (x.stepS0 i).blk = x.blk.set i (wideStep x.S0 x.S1).2 := rfl
@[simp] theorem UnitV.stepS0_cur (x : UnitV) (i : Nat) : (x.stepS0 i).cur = x.cur := rfl
@[simp] theorem UnitV.stepS0_seeded (x : UnitV) (i : Nat) : (x.stepS0 i).seeded = x.seeded := rfl

/-! The flag of a unit -/

@[simp] theorem State.seeded_u (s : State) : s.seeded .u = s.u.seeded := rfl
@[simp] theorem State.seeded_b (s : State) : s.seeded .b = s.b.seeded := rfl
@[simp] theorem State.seeded_v (s : State) : s.seeded .v = s.v.seeded := rfl

end Sys2Proof.Machine
end

