-- ==== Sys2Proof/Laws/Stream.lean ====
section
/-! SUPPORT. The small lemmas of the stream of a seed and of the recurrence step. -/

namespace Sys2Proof.Machine

@[simp] theorem streamPair_zero (a b : Word) : streamPair a b 0 = (a, b) := rfl

theorem streamPair_succ (a b : Word) (n : Nat) :
    streamPair a b (n + 1) = ((recStep (streamPair a b n).2 (streamPair a b n).1).1, (streamPair a b n).1) := rfl

/-- A stream continued from its `m`-th pair is the stream of that pair as a seed. -/
theorem streamPair_add (a b : Word) (m n : Nat) :
    streamPair a b (m + n) = streamPair (streamPair a b m).1 (streamPair a b m).2 n := by
  induction n with
  | zero => rfl
  | succ n ih => rw [← Nat.add_assoc, streamPair_succ, streamPair_succ, ih]

theorem streamOut_add (a b : Word) (m k : Nat) :
    streamOut a b (m + k) = streamOut (streamPair a b m).1 (streamPair a b m).2 k := by
  unfold streamOut
  rw [streamPair_add]

@[simp] theorem streamBlock_length (a b : Word) (start n : Nat) : (streamBlock a b start n).length = n := by
  simp [streamBlock]

theorem streamBlock_getElem? (a b : Word) (start n k : Nat) :
    (streamBlock a b start n)[k]? = if k < n then some (streamOut a b (start + k)) else none := by
  unfold streamBlock
  split <;> simp_all

@[simp] theorem wideBlock_length (a0 b0 a1 b1 : Word) (start n : Nat) : (wideBlock a0 b0 a1 b1 start n).length = n := by
  simp [wideBlock]

theorem wideBlock_getElem? (a0 b0 a1 b1 : Word) (start n k : Nat) :
    (wideBlock a0 b0 a1 b1 start n)[k]? =
      if k < n then some ⟨streamOut a0 b0 (start + k), streamOut a1 b1 (start + k)⟩ else none := by
  unfold wideBlock
  split <;> simp_all

@[simp] theorem wideStep_fst_lane0 (M O : Wide) : (wideStep M O).1.lane0 = (recStep M.lane0 O.lane0).1 := rfl
@[simp] theorem wideStep_fst_lane1 (M O : Wide) : (wideStep M O).1.lane1 = (recStep M.lane1 O.lane1).1 := rfl
@[simp] theorem wideStep_snd_lane0 (M O : Wide) : (wideStep M O).2.lane0 = (recStep M.lane0 O.lane0).2 := rfl
@[simp] theorem wideStep_snd_lane1 (M O : Wide) : (wideStep M O).2.lane1 = (recStep M.lane1 O.lane1).2 := rfl

end Sys2Proof.Machine
end

