-- ==== Sys2Proof/Laws/Refill.lean ====
section
/-! SUPPORT. All that a refill does: the unit's new state words, buffer and cursor in terms of the stream of its old
state words, and that a refill and a buffer write keep the buffer's size. -/

namespace Sys2Proof.Machine

/-! Unit B -/

theorem UnitB.refillLoop_succ (b : UnitB) (i n : Nat) :
    b.refillLoop i (n + 1) = ((b.stepS1 i).stepS0 (i + 1)).refillLoop (i + 2) n := rfl

/-- The loop of `Refill_B`, everything it does: `2n` steps of the stream of the state words, written from index `i`
on. -/
theorem UnitB.refillLoop_spec (n : Nat) : ∀ (b : UnitB) (i : Nat),
    (b.refillLoop i n).s0 = (streamPair b.s0 b.s1 (2 * n)).1 ∧
    (b.refillLoop i n).s1 = (streamPair b.s0 b.s1 (2 * n)).2 ∧
    (b.refillLoop i n).cur = b.cur ∧ (b.refillLoop i n).seeded = b.seeded ∧
    (b.refillLoop i n).blk.length = b.blk.length ∧
    ∀ j, (b.refillLoop i n).blk[j]? =
      if i ≤ j ∧ j < i + 2 * n ∧ j < b.blk.length then some (streamOut b.s0 b.s1 (j - i)) else b.blk[j]? := by
  induction n with
  | zero =>
    intro b i
    refine ⟨rfl, rfl, rfl, rfl, rfl, fun j => ?_⟩
    rw [if_neg (by omega)]
    rfl
  | succ n ih =>
    intro b i
    obtain ⟨h0, h1, hc, hs, hl, hb⟩ := ih ((b.stepS1 i).stepS0 (i + 1)) (i + 2)
    have hp : (((b.stepS1 i).stepS0 (i + 1)).s0, ((b.stepS1 i).stepS0 (i + 1)).s1) = streamPair b.s0 b.s1 2 := rfl
    have e0 := congrArg Prod.fst hp
    have e1 := congrArg Prod.snd hp
    simp only at e0 e1
    have e2 : 2 * (n + 1) = 2 + 2 * n := by omega
    rw [UnitB.refillLoop_succ, h0, h1, hc, hs, hl, e0, e1, e2, streamPair_add b.s0 b.s1 2 (2 * n)]
    refine ⟨rfl, rfl, rfl, rfl, by simp, fun j => ?_⟩
    rw [hb, e0, e1]
    have hlen : ((b.stepS1 i).stepS0 (i + 1)).blk.length = b.blk.length := by simp
    rw [hlen]
    by_cases hj : i + 2 ≤ j ∧ j < i + 2 + 2 * n ∧ j < b.blk.length
    · rw [if_pos hj, if_pos (by omega), ← streamOut_add]
      congr 2
      omega
    · rw [if_neg hj]
      have hblk : ((b.stepS1 i).stepS0 (i + 1)).blk =
          (b.blk.set i (streamOut b.s0 b.s1 0)).set (i + 1) (streamOut b.s0 b.s1 1) := rfl
      rw [hblk, List.getElem?_set, List.getElem?_set]
      simp only [List.length_set]
      by_cases h1 : i + 1 = j
      · subst h1
        by_cases h2 : i + 1 < b.blk.length
        · rw [if_pos rfl, if_pos h2, if_pos (by omega)]
          congr 2
          omega
        · rw [if_pos rfl, if_neg h2, if_neg (by omega), List.getElem?_eq_none (by omega)]
      · rw [if_neg h1]
        by_cases h2 : i = j
        · subst h2
          by_cases h3 : i < b.blk.length
          · rw [if_pos rfl, if_pos h3, if_pos (by omega), Nat.sub_self]
          · rw [if_pos rfl, if_neg h3, if_neg (by omega), List.getElem?_eq_none (by omega)]
        · rw [if_neg h2, if_neg (by omega)]

/-- `Refill_B` on a buffer of its built size: the state words run one block ahead on their own stream, the buffer is that
block, the cursor is 0. -/
theorem UnitB.refill_eq (b : UnitB) (k : BlockSize) (h : b.blk.length = k.words) :
    b.refill k =
      ⟨(streamPair b.s0 b.s1 k.words).1, (streamPair b.s0 b.s1 k.words).2, streamBlock b.s0 b.s1 0 k.words,
        0, b.seeded⟩ := by
  obtain ⟨h0, h1, -, hs, hl, hb⟩ := UnitB.refillLoop_spec k.pairs b 0
  rw [← BlockSize.words_eq] at h0 h1
  refine UnitB.ext h0 h1 (List.ext_getElem? fun j => ?_) rfl hs
  rw [streamBlock_getElem?]
  refine (hb j).trans ?_
  rw [← BlockSize.words_eq, h]
  by_cases hj : j < k.words
  · rw [if_pos (by omega), if_pos hj, Nat.zero_add, Nat.sub_zero]
  · rw [if_neg (by omega), if_neg hj, List.getElem?_eq_none (by omega)]

@[simp] theorem UnitB.refill_blk_length (b : UnitB) (k : BlockSize) : (b.refill k).blk.length = b.blk.length :=
  (UnitB.refillLoop_spec k.pairs b 0).2.2.2.2.1

@[simp] theorem UnitB.refill_cur (b : UnitB) (k : BlockSize) : (b.refill k).cur = 0 := rfl

@[simp] theorem UnitB.refill_seeded (b : UnitB) (k : BlockSize) : (b.refill k).seeded = b.seeded :=
  (UnitB.refillLoop_spec k.pairs b 0).2.2.2.1

@[simp] theorem UnitB.memWrite_blk_length (b : UnitB) (i : Nat) (x : Word) :
    (b.memWrite i x).blk.length = b.blk.length := by
  simp

/-! Unit V -/

theorem UnitV.refillLoop_succ (v : UnitV) (i n : Nat) :
    v.refillLoop i (n + 1) = ((v.stepS1 i).stepS0 (i + 1)).refillLoop (i + 2) n := rfl

/-- One lane of unit V as a unit B: its state words and its column of the buffer (43_vector.md R188). -/
def UnitV.lane0 (v : UnitV) : UnitB := ⟨v.S0.lane0, v.S1.lane0, v.blk.map Wide.lane0, v.cur, v.seeded⟩

/-- The other lane as a unit B. -/
def UnitV.lane1 (v : UnitV) : UnitB := ⟨v.S0.lane1, v.S1.lane1, v.blk.map Wide.lane1, v.cur, v.seeded⟩

theorem UnitV.lane0_stepS1 (v : UnitV) (i : Nat) : (v.stepS1 i).lane0 = v.lane0.stepS1 i := by
  simp [UnitV.lane0, UnitB.stepS1, UnitB.memWrite]

theorem UnitV.lane0_stepS0 (v : UnitV) (i : Nat) : (v.stepS0 i).lane0 = v.lane0.stepS0 i := by
  simp [UnitV.lane0, UnitB.stepS0, UnitB.memWrite]

theorem UnitV.lane1_stepS1 (v : UnitV) (i : Nat) : (v.stepS1 i).lane1 = v.lane1.stepS1 i := by
  simp [UnitV.lane1, UnitB.stepS1, UnitB.memWrite]

theorem UnitV.lane1_stepS0 (v : UnitV) (i : Nat) : (v.stepS0 i).lane1 = v.lane1.stepS0 i := by
  simp [UnitV.lane1, UnitB.stepS0, UnitB.memWrite]

theorem UnitV.lane0_refillLoop (n : Nat) : ∀ (v : UnitV) (i : Nat), (v.refillLoop i n).lane0 = v.lane0.refillLoop i n := by
  induction n with
  | zero => intro v i; rfl
  | succ n ih => intro v i; rw [UnitV.refillLoop_succ, UnitB.refillLoop_succ, ih, UnitV.lane0_stepS0, UnitV.lane0_stepS1]

theorem UnitV.lane1_refillLoop (n : Nat) : ∀ (v : UnitV) (i : Nat), (v.refillLoop i n).lane1 = v.lane1.refillLoop i n := by
  induction n with
  | zero => intro v i; rfl
  | succ n ih => intro v i; rw [UnitV.refillLoop_succ, UnitB.refillLoop_succ, ih, UnitV.lane1_stepS0, UnitV.lane1_stepS1]

/-- A refill of unit V is a refill of unit B in lane 0. -/
theorem UnitV.lane0_refill (v : UnitV) (k : BlockSize) : (v.refill k).lane0 = v.lane0.refill k := by
  unfold UnitV.refill UnitB.refill
  rw [← UnitV.lane0_refillLoop]
  rfl

/-- A refill of unit V is a refill of unit B in lane 1. -/
theorem UnitV.lane1_refill (v : UnitV) (k : BlockSize) : (v.refill k).lane1 = v.lane1.refill k := by
  unfold UnitV.refill UnitB.refill
  rw [← UnitV.lane1_refillLoop]
  rfl

/-- A unit V is determined by its two lanes. -/
theorem UnitV.ext_lanes {v w : UnitV} (h0 : v.lane0 = w.lane0) (h1 : v.lane1 = w.lane1) : v = w := by
  simp only [UnitV.lane0, UnitV.lane1, UnitB.mk.injEq] at h0 h1
  obtain ⟨a0, a1, ab, ac, as⟩ := h0
  obtain ⟨b0, b1, bb, -, -⟩ := h1
  refine UnitV.ext (Wide.ext a0 b0) (Wide.ext a1 b1) (List.ext_getElem? fun i => ?_) ac as
  have e0 := congrArg (fun l => l[i]?) ab
  have e1 := congrArg (fun l => l[i]?) bb
  simp only [List.getElem?_map] at e0 e1
  cases hv : v.blk[i]? <;> cases hw : w.blk[i]? <;> simp_all
  exact Wide.ext e0 e1

/-- `Refill_V` on a buffer of its built size: each lane runs one block ahead on its own stream, the buffer is that block,
the cursor is 0. -/
theorem UnitV.refill_eq (v : UnitV) (k : BlockSize) (h : v.blk.length = k.words) :
    v.refill k =
      ⟨⟨(streamPair v.S0.lane0 v.S1.lane0 k.words).1, (streamPair v.S0.lane1 v.S1.lane1 k.words).1⟩,
       ⟨(streamPair v.S0.lane0 v.S1.lane0 k.words).2, (streamPair v.S0.lane1 v.S1.lane1 k.words).2⟩,
       wideBlock v.S0.lane0 v.S1.lane0 v.S0.lane1 v.S1.lane1 0 k.words, 0, v.seeded⟩ := by
  refine UnitV.ext_lanes ?_ ?_
  · rw [UnitV.lane0_refill, UnitB.refill_eq _ _ (by simpa [UnitV.lane0] using h)]
    simp [UnitV.lane0, wideBlock, streamBlock, Function.comp_def]
  · rw [UnitV.lane1_refill, UnitB.refill_eq _ _ (by simpa [UnitV.lane1] using h)]
    simp [UnitV.lane1, wideBlock, streamBlock, Function.comp_def]

@[simp] theorem UnitV.refill_blk_length (v : UnitV) (k : BlockSize) : (v.refill k).blk.length = v.blk.length := by
  have h := congrArg (fun b : UnitB => b.blk.length) (UnitV.lane0_refill v k)
  simpa [UnitV.lane0] using h

@[simp] theorem UnitV.refill_cur (v : UnitV) (k : BlockSize) : (v.refill k).cur = 0 := rfl

@[simp] theorem UnitV.refill_seeded (v : UnitV) (k : BlockSize) : (v.refill k).seeded = v.seeded := by
  have h := congrArg UnitB.seeded (UnitV.lane0_refill v k)
  simpa [UnitV.lane0] using h

@[simp] theorem UnitV.memWrite_blk_length (v : UnitV) (i : Nat) (x : Wide) :
    (v.memWrite i x).blk.length = v.blk.length := by
  simp

end Sys2Proof.Machine
end

