-- ==== Sys2Proof/Laws/Ops.lean ====
section
/-! SUPPORT. One lemma per shared operation that says everything it can do; later proofs cite these and unfold none. -/

namespace Sys2Proof.Machine

/-! Precondition checks -/

theorem whenSeeded_of_true {x : UnitId} {s : State} (h : s.seeded x = true) (r : Result) : whenSeeded x s r = r := by
  simp [whenSeeded, h]

theorem whenSeeded_of_false {x : UnitId} {s : State} (h : s.seeded x = false) (r : Result) :
    whenSeeded x s r = .fault (.unseeded x) := by
  simp [whenSeeded, h, raiseFault]

/-- What the seeded check can answer. -/
theorem whenSeeded_eq_next {x : UnitId} {s t : State} {r : Result} :
    whenSeeded x s r = .next t ↔ s.seeded x = true ∧ r = .next t := by
  cases h : s.seeded x <;> simp [whenSeeded, h, raiseFault]

theorem whenSeedAllowed_of_not {x : UnitId} {s : State} (h : ¬(s.seeded x = true ∧ s.cfg.reseed = .fault)) (r : Result) :
    whenSeedAllowed x s r = r := by
  simp [whenSeedAllowed, h]

theorem whenSeedAllowed_of_false {x : UnitId} {s : State} (h : s.seeded x = false) (r : Result) :
    whenSeedAllowed x s r = r := by
  simp [whenSeedAllowed, h]

theorem whenSeedAllowed_of_seeded {x : UnitId} {s : State} (h : s.seeded x = true) (hp : s.cfg.reseed = .fault)
    (r : Result) : whenSeedAllowed x s r = .fault (.reseed x) := by
  simp [whenSeedAllowed, h, hp, raiseFault]

/-- What the reseed check can answer. -/
theorem whenSeedAllowed_eq_next {x : UnitId} {s t : State} {r : Result} :
    whenSeedAllowed x s r = .next t ↔ ¬(s.seeded x = true ∧ s.cfg.reseed = .fault) ∧ r = .next t := by
  unfold whenSeedAllowed
  split <;> simp_all [raiseFault]

/-! Values -/

/-- An element, as a response word, is the bit field in plain arithmetic. -/
theorem zext64_element (w : Width) (j : Nat) (x : Word) : zext64 (element w j x) = bitField x w j := by
  apply BitVec.eq_of_toNat_eq
  simp only [zext64, element, bitField, BitVec.toNat_setWidth, BitVec.extractLsb'_toNat, BitVec.toNat_ofNat,
    Nat.shiftRight_eq_div_pow]

/-- The truncation of unit U, as a response word, is the lowest bit field. -/
theorem zext64_truncW (w : Width) (x : Word) : zext64 (truncW w x) = bitField x w 0 := by
  apply BitVec.eq_of_toNat_eq
  simp [zext64, truncW, bitField]

theorem memReadB_eq (blk : List Word) (e : Nat) (w : Width) :
    memReadB blk e w = (blk[e / w.perWord]?).map (element w (e % w.perWord)) := by
  simp only [memReadB]
  cases blk[e / w.perWord]? <;> rfl

theorem memReadV_eq (blk : List Wide) (e : Nat) (w : Width) :
    memReadV blk e w =
      (blk[e / w.perWord / 2]?).map (fun x => element w (e % w.perWord) (laneOf x (e / w.perWord % 2))) := by
  simp only [memReadV, Config.lanes]
  cases blk[e / w.perWord / 2]? <;> rfl

/-! Refill checks -/

theorem State.refillWhenExhaustedB_of_ne {s : State} (h : s.b.cur ≠ s.cfg.itemsB) : s.refillWhenExhaustedB = s := by
  simp [State.refillWhenExhaustedB, h]

theorem State.refillWhenExhaustedB_of_eq {s : State} (h : s.b.cur = s.cfg.itemsB) : s.refillWhenExhaustedB = s.refillB := by
  simp [State.refillWhenExhaustedB, h]

theorem State.refillWhenExhaustedV_of_ne {s : State} (h : s.v.cur ≠ s.cfg.itemsV) : s.refillWhenExhaustedV = s := by
  simp [State.refillWhenExhaustedV, h]

theorem State.refillWhenExhaustedV_of_eq {s : State} (h : s.v.cur = s.cfg.itemsV) : s.refillWhenExhaustedV = s.refillV := by
  simp [State.refillWhenExhaustedV, h]

/-! Taking an item -/

/-- Taking an item that is there steps the cursor and answers the item. -/
theorem State.takeItemB_of_some {s : State} {x : Word} (hx : s.b.blk[s.b.cur / s.cfg.wB.perWord]? = some x) :
    s.takeItemB = .next { s with
      b := { s.b with cur := s.b.cur + 1 }
      rsps := s.rsps ++ [.data (bitField x s.cfg.wB (s.b.cur % s.cfg.wB.perWord))] } := by
  rw [State.takeItemB, memReadB_eq, hx, Option.map_some]
  simp only [zext64_element]
  rfl

/-- An item at a cursor below the item count is there, and taking it steps the cursor and answers the item. -/
theorem State.takeItemB_eq (s : State) (hl : s.b.blk.length = s.cfg.blockB.words) (hc : s.b.cur < s.cfg.itemsB) :
    ∃ x, s.b.blk[s.b.cur / s.cfg.wB.perWord]? = some x ∧
      s.takeItemB = .next { s with
        b := { s.b with cur := s.b.cur + 1 }
        rsps := s.rsps ++ [.data (bitField x s.cfg.wB (s.b.cur % s.cfg.wB.perWord))] } := by
  have hq : s.b.cur / s.cfg.wB.perWord < s.b.blk.length := by
    rw [hl]
    exact Nat.div_lt_of_lt_mul (by rw [Nat.mul_comm]; exact hc)
  exact ⟨s.b.blk[s.b.cur / s.cfg.wB.perWord], List.getElem?_eq_getElem hq, State.takeItemB_of_some (List.getElem?_eq_getElem hq)⟩

/-- What taking an item can answer. -/
theorem State.takeItemB_eq_next {s t : State} (h : s.takeItemB = .next t) :
    ∃ x, s.b.blk[s.b.cur / s.cfg.wB.perWord]? = some x ∧
      t = { s with
        b := { s.b with cur := s.b.cur + 1 }
        rsps := s.rsps ++ [.data (bitField x s.cfg.wB (s.b.cur % s.cfg.wB.perWord))] } := by
  cases hx : s.b.blk[s.b.cur / s.cfg.wB.perWord]? with
  | none => simp [State.takeItemB, memReadB_eq, hx, raiseFault] at h
  | some x =>
    rw [State.takeItemB_of_some hx] at h
    cases h
    exact ⟨x, rfl, rfl⟩

/-- Taking an item that is there steps the cursor and answers the item. -/
theorem State.takeItemV_of_some {s : State} {x : Wide} (hx : s.v.blk[s.v.cur / s.cfg.wV.perWord / 2]? = some x) :
    s.takeItemV = .next { s with
      v := { s.v with cur := s.v.cur + 1 }
      rsps := s.rsps ++ [.data (bitField (laneOf x (s.v.cur / s.cfg.wV.perWord % 2)) s.cfg.wV
        (s.v.cur % s.cfg.wV.perWord))] } := by
  rw [State.takeItemV, memReadV_eq, hx, Option.map_some]
  simp only [zext64_element]
  rfl

/-- An item at a cursor below the item count is there, and taking it steps the cursor and answers the item. -/
theorem State.takeItemV_eq (s : State) (hl : s.v.blk.length = s.cfg.blockV.words) (hc : s.v.cur < s.cfg.itemsV) :
    ∃ x, s.v.blk[s.v.cur / s.cfg.wV.perWord / 2]? = some x ∧
      s.takeItemV = .next { s with
        v := { s.v with cur := s.v.cur + 1 }
        rsps := s.rsps ++ [.data (bitField (laneOf x (s.v.cur / s.cfg.wV.perWord % 2)) s.cfg.wV
          (s.v.cur % s.cfg.wV.perWord))] } := by
  have hq : s.v.cur / s.cfg.wV.perWord / 2 < s.v.blk.length := by
    rw [hl]
    refine Nat.div_lt_of_lt_mul ?_
    refine Nat.div_lt_of_lt_mul ?_
    simp only [Config.itemsV, Config.lanes] at hc
    rwa [Nat.mul_comm, Nat.mul_comm 2]
  exact ⟨s.v.blk[s.v.cur / s.cfg.wV.perWord / 2], List.getElem?_eq_getElem hq, State.takeItemV_of_some (List.getElem?_eq_getElem hq)⟩

/-- What taking an item can answer. -/
theorem State.takeItemV_eq_next {s t : State} (h : s.takeItemV = .next t) :
    ∃ x, s.v.blk[s.v.cur / s.cfg.wV.perWord / 2]? = some x ∧
      t = { s with
        v := { s.v with cur := s.v.cur + 1 }
        rsps := s.rsps ++ [.data (bitField (laneOf x (s.v.cur / s.cfg.wV.perWord % 2)) s.cfg.wV
          (s.v.cur % s.cfg.wV.perWord))] } := by
  cases hx : s.v.blk[s.v.cur / s.cfg.wV.perWord / 2]? with
  | none => simp [State.takeItemV, memReadV_eq, hx, raiseFault] at h
  | some x =>
    rw [State.takeItemV_of_some hx] at h
    cases h
    exact ⟨x, rfl, rfl⟩

/-! The meanings, what each can answer -/

theorem execSeedU_eq_next {a b : Word} {s t : State} :
    execSeedU a b s = .next t ↔
      ¬(s.u.seeded = true ∧ s.cfg.reseed = .fault) ∧ t = (s.putU ⟨a, b, true⟩).respond .void := by
  simp only [execSeedU, whenSeedAllowed_eq_next, State.seeded_u, Host.Outcome.next.injEq, @eq_comm _ t]

theorem execDrawU_eq_next {s t : State} :
    execDrawU s = .next t ↔
      s.u.seeded = true ∧
        t = (s.putU ⟨(recStep s.u.s1 s.u.s0).1, s.u.s0, s.u.seeded⟩).respond
          (.data (bitField (recStep s.u.s1 s.u.s0).2 s.cfg.wU 0)) := by
  simp only [execDrawU, whenSeeded_eq_next, State.seeded_u, Host.Outcome.next.injEq, zext64_truncW,
    @eq_comm _ t]

theorem execRefillU_eq_next {s t : State} : execRefillU s = .next t ↔ t = s.respond .void := by
  simp only [execRefillU, Host.Outcome.next.injEq, @eq_comm _ t]

/-- Unit B right after a seed of `(a, b)`, before the flag is set. -/
def State.storedB (s : State) (a b : Word) : State := s.putB { s.b with s0 := a, s1 := b }

theorem execSeedB_eq_next {a b : Word} {s t : State} :
    execSeedB a b s = .next t ↔
      ¬(s.b.seeded = true ∧ s.cfg.reseed = .fault) ∧
        t = ((s.storedB a b).refillB.putB { (s.storedB a b).refillB.b with seeded := true }).respond .void := by
  simp only [execSeedB, whenSeedAllowed_eq_next, State.seeded_b, Host.Outcome.next.injEq, @eq_comm _ t, State.storedB]

theorem execDrawB_eq_next {s t : State} :
    execDrawB s = .next t ↔ s.b.seeded = true ∧ s.refillWhenExhaustedB.takeItemB = .next t := by
  simp only [execDrawB, whenSeeded_eq_next, State.seeded_b]

theorem execRefillB_eq_next {s t : State} :
    execRefillB s = .next t ↔ s.b.seeded = true ∧ t = s.refillB.respond .void := by
  simp only [execRefillB, whenSeeded_eq_next, State.seeded_b, Host.Outcome.next.injEq, @eq_comm _ t]

/-- Unit V right after a seed of `(a, b)`, before the refill and the flag. -/
def State.storedV (s : State) (a b : Word) : State := s.putV { s.v with S0 := ⟨a, b⟩, S1 := ⟨b, a⟩ }

theorem execSeedV_eq_next {a b : Word} {s t : State} :
    execSeedV a b s = .next t ↔
      ¬(s.v.seeded = true ∧ s.cfg.reseed = .fault) ∧
        t = ((s.storedV a b).refillV.putV { (s.storedV a b).refillV.v with seeded := true }).respond .void := by
  simp only [execSeedV, whenSeedAllowed_eq_next, State.seeded_v, Host.Outcome.next.injEq, @eq_comm _ t, State.storedV]

theorem execDrawV_eq_next {s t : State} :
    execDrawV s = .next t ↔ s.v.seeded = true ∧ s.refillWhenExhaustedV.takeItemV = .next t := by
  simp only [execDrawV, whenSeeded_eq_next, State.seeded_v]

theorem execRefillV_eq_next {s t : State} :
    execRefillV s = .next t ↔ s.v.seeded = true ∧ t = s.refillV.respond .void := by
  simp only [execRefillV, whenSeeded_eq_next, State.seeded_v, Host.Outcome.next.injEq, @eq_comm _ t]

/-! The step -/

theorem step_nil {s : State} (h : s.cmds = []) : step s = .next s := by
  simp [step, h]

theorem step_command {s : State} {w : CmdWord} {rest : List CmdWord} {i : Instr} (h : s.cmds = w :: rest)
    (hd : decode w = .command i) : step s = exec i { s with cmds := rest } := by
  simp [step, h, hd]

theorem step_reserved {s : State} {w : CmdWord} {rest : List CmdWord} {top : BitVec 4} (h : s.cmds = w :: rest)
    (hd : decode w = .reserved top) : step s = .fault (.reserved top) := by
  simp [step, h, hd, raiseFault]

/-- Everything a step that answers a next state can have done. -/
theorem step_eq_next {s t : State} (h : step s = .next t) :
    (s.cmds = [] ∧ t = s) ∨
      ∃ w rest i, s.cmds = w :: rest ∧ decode w = .command i ∧ exec i { s with cmds := rest } = .next t := by
  cases hc : s.cmds with
  | nil =>
    rw [step_nil hc] at h
    exact .inl ⟨rfl, by injection h with h; exact h.symm⟩
  | cons w rest =>
    cases hd : decode w with
    | command i =>
      rw [step_command hc hd] at h
      exact .inr ⟨w, rest, i, rfl, hd, h⟩
    | reserved top =>
      rw [step_reserved hc hd] at h
      cases h

end Sys2Proof.Machine
end

