-- ==== Sys2Proof/Laws/PerInstr.lean ====
section
/-! SUPPORT. Statements made per constructor of Instr: the canonical word of a command is covered by the row of the
opcode map that bears its mnemonic (30_encoding.md R86). -/

namespace Sys2Proof.Laws.OpcodeRow

/-- Some row of the opcode map has the command's mnemonic and covers its canonical word. -/
def Statement (i : Instr) : Prop := ∃ r ∈ opcodeMap, r.mnemonic = i.mnemonic ∧ r.covers (encode i) = true

/-- A row whose mask is the first digit covers a word exactly when the word's first digit is the row's. -/
theorem covers_topDigit (m : String) (d : BitVec 4) (x o : BitVec 2) (a b : Word) (h : x ++ o = d) :
    (OpcodeRow.mk m (topDigit d) (topDigit 0xF)).covers (packCmd x o a b) = true := by
  have hd : ∀ j, d.getLsbD j = if j < 2 then o.getLsbD j else x.getLsbD (j - 2) := by
    intro j
    rw [← h]
    exact BitVec.getLsbD_append
  have ht : ∀ (e : BitVec 4) (j : Nat), (topDigit e).getLsbD j = if j < 128 then false else e.getLsbD (j - 128) := by
    intro e j
    have he : topDigit e = e ++ (0 : BitVec 128) := rfl
    rw [he, BitVec.getLsbD_append]
    simp
  have hf : ∀ j, j < 4 → (0xF : BitVec 4).getLsbD j = true := by decide
  simp only [OpcodeRow.covers, beq_iff_eq]
  apply BitVec.eq_of_getLsbD_eq
  intro i hi
  rw [BitVec.getLsbD_and, packCmd_getLsbD, ht, ht]
  by_cases h2 : i < 128
  · simp [h2]
  · rw [if_neg (show ¬i < 64 by omega)]
    simp only [if_neg h2, hf (i - 128) (by omega), hd, Bool.and_true]
    by_cases h3 : i < 130
    · rw [if_pos h3, if_pos (by omega)]
    · rw [if_neg h3, if_neg (by omega), show i - 130 = i - 128 - 2 by omega]

/-- The row of a command's digit covers its canonical word. -/
theorem covers_encode (m : String) (d : BitVec 4) {i : Instr} (x : UnitId) (o : OpId) (hx : i.unit = x) (ho : i.op = o)
    (h : (x.code ++ o.code : BitVec 4) = d) :
    (OpcodeRow.mk m (topDigit d) (topDigit 0xF)).covers (encode i) = true := by
  subst hx ho
  exact covers_topDigit m d _ _ _ _ h

theorem seedU (a b : Word) : Statement (.seedU a b) :=
  ⟨_, .head _, rfl,
    covers_encode _ _ .u .seed rfl rfl (by decide)⟩

theorem drawU : Statement .drawU :=
  ⟨_, .tail _ (.head _), rfl,
    covers_encode _ _ .u .draw rfl rfl (by decide)⟩

theorem refillU : Statement .refillU :=
  ⟨_, .tail _ (.tail _ (.head _)), rfl,
    covers_encode _ _ .u .refill rfl rfl (by decide)⟩

theorem seedB (a b : Word) : Statement (.seedB a b) :=
  ⟨_, .tail _ (.tail _ (.tail _ (.head _))), rfl,
    covers_encode _ _ .b .seed rfl rfl (by decide)⟩

theorem drawB : Statement .drawB :=
  ⟨_, .tail _ (.tail _ (.tail _ (.tail _ (.head _)))), rfl,
    covers_encode _ _ .b .draw rfl rfl (by decide)⟩

theorem refillB : Statement .refillB :=
  ⟨_, .tail _ (.tail _ (.tail _ (.tail _ (.tail _ (.head _))))), rfl,
    covers_encode _ _ .b .refill rfl rfl (by decide)⟩

theorem seedV (a b : Word) : Statement (.seedV a b) :=
  ⟨_, .tail _ (.tail _ (.tail _ (.tail _ (.tail _ (.tail _ (.head _)))))), rfl,
    covers_encode _ _ .v .seed rfl rfl (by decide)⟩

theorem drawV : Statement .drawV :=
  ⟨_, .tail _ (.tail _ (.tail _ (.tail _ (.tail _ (.tail _ (.tail _ (.head _))))))), rfl,
    covers_encode _ _ .v .draw rfl rfl (by decide)⟩

theorem refillV : Statement .refillV :=
  ⟨_, .tail _ (.tail _ (.tail _ (.tail _ (.tail _ (.tail _ (.tail _ (.tail _ (.head _)))))))), rfl,
    covers_encode _ _ .v .refill rfl rfl (by decide)⟩

end Sys2Proof.Laws.OpcodeRow
end

