-- ==== Sys2Proof/Laws/Run.lean ====
section
/-! SUPPORT. A run one step at a time: what `k + 1` steps are in terms of the first, and runs one after the other. -/

namespace Sys2Proof.Machine

@[simp] theorem run_zero (s : State) : Host.Core.run core 0 s = .next s := rfl

/-- The first step of a run, for any machine: a next state. -/
theorem run_succ_next_any (M : Host.Core) {k : Nat} {s t : M.State} (h : M.step s = .next t) :
    M.run (k + 1) s = M.run k t := by
  simp only [Host.Core.run, h]

/-- The first step of a run, for any machine: a fault. -/
theorem run_succ_fault_any (M : Host.Core) {k : Nat} {s : M.State} {f : M.Fault} (h : M.step s = .fault f) :
    M.run (k + 1) s = .fault f := by
  simp only [Host.Core.run, h]

/-- The first step of a run, for any machine: a refusal. -/
theorem run_succ_refused_any (M : Host.Core) {k : Nat} {s : M.State} {r : M.Refusal} (h : M.step s = .refused r) :
    M.run (k + 1) s = .refused r := by
  simp only [Host.Core.run, h]

theorem run_succ_of_next {k : Nat} {s t : State} (h : step s = .next t) :
    Host.Core.run core (k + 1) s = Host.Core.run core k t :=
  run_succ_next_any core h

theorem run_succ_of_fault {k : Nat} {s : State} {f : Fault} (h : step s = .fault f) :
    Host.Core.run core (k + 1) s = .fault f :=
  run_succ_fault_any core h

theorem run_succ_of_refused {k : Nat} {s : State} {r : Refusal} (h : step s = .refused r) :
    Host.Core.run core (k + 1) s = .refused r :=
  run_succ_refused_any core h

/-- A run that answers a next state took a first step that did. -/
theorem run_succ_eq_next {k : Nat} {s t : State} (h : Host.Core.run core (k + 1) s = .next t) :
    ∃ s', step s = .next s' ∧ Host.Core.run core k s' = .next t := by
  cases hs : step s with
  | next s' => exact ⟨s', rfl, by rwa [run_succ_of_next hs] at h⟩
  | fault f => rw [run_succ_of_fault hs] at h; cases h
  | refused r => rw [run_succ_of_refused hs] at h; cases h

/-- A run of `m + n` steps is a run of `m` and then a run of `n`. -/
theorem run_add {m n : Nat} {s t : State} (h : Host.Core.run core m s = .next t) :
    Host.Core.run core (m + n) s = Host.Core.run core n t := by
  induction m generalizing s with
  | zero => cases h; rw [Nat.zero_add]
  | succ m ih =>
    obtain ⟨s', hs, hr⟩ := run_succ_eq_next h
    rw [show m + 1 + n = m + n + 1 by omega, run_succ_of_next hs]
    exact ih hr

end Sys2Proof.Machine
end

