-- ==== Sys2Proof/Tests/Slice0.lean ====
section
/-! SUPPORT. Tests whose expected results are the spec's own numbers (30_encoding.md section 7, 95_test_vectors.md), each
about one step, and for every obligation with hypotheses a witness that meets them. -/

namespace Sys2Proof.Tests

open Sys2Proof.Machine

/-- How a command ended: its next state, or its fault. -/
def ended : Result → Option State
  | .next t => some t
  | _ => none
def stopped : Result → Option Fault
  | .fault f => some f
  | _ => none

/-! ## Decoding: words written out from the spec's encoding -/

/-- 95_test_vectors.md section 7, the rows of unit U; `SEED.U`'s first word is bit by bit `00 01`, `a`, `b`. -/
theorem test_decode_unitU :
    decode (0b00#2 ++ 0b01#2 ++ 0x00000000deadbeef#64 ++ 0x00000000cafebabe#64) =
      .command (.seedU 0xdeadbeef 0xcafebabe) ∧
    decode 0x100000000000000000000000000000000#132 = .command (.seedU 0 0) ∧
    decode 0x200000000000000000000000000000000#132 = .command .drawU ∧
    decode 0x2ffffffffffffffffffffffffffffffff#132 = .command .drawU ∧
    decode 0x300000000000000000000000000000000#132 = .command .refillU := by decide

/-- 95_test_vectors.md section 7, the rows of unit B. -/
theorem test_decode_unitB :
    decode (0b01#2 ++ 0b01#2 ++ 0x00000000deadbeef#64 ++ 0x00000000cafebabe#64) =
      .command (.seedB 0xdeadbeef 0xcafebabe) ∧
    decode 0x5ffffffffffffffffffffffffffffffff#132 = .command (.seedB 0xffffffffffffffff 0xffffffffffffffff) ∧
    decode 0x600000000000000000000000000000000#132 = .command .drawB ∧
    decode 0x6ffffffffffffffff0123456789abcdef#132 = .command .drawB ∧
    decode 0x700000000000000000000000000000000#132 = .command .refillB := by decide

/-- 95_test_vectors.md section 7, the rows of unit V. -/
theorem test_decode_unitV :
    decode (0b10#2 ++ 0b01#2 ++ 0x00000000deadbeef#64 ++ 0x00000000cafebabe#64) =
      .command (.seedV 0xdeadbeef 0xcafebabe) ∧
    decode 0x900000000000000010000000000000002#132 = .command (.seedV 1 2) ∧
    decode 0xa00000000000000000000000000000000#132 = .command .drawV ∧
    decode 0xb00000000000000000000000000000000#132 = .command .refillV := by decide

/-- 95_test_vectors.md section 7, the reserved rows. -/
theorem test_decode_reserved :
    decode 0x000000000000000000000000000000000#132 = .reserved 0x0 ∧
    decode 0x000000000deadbeef00000000cafebabe#132 = .reserved 0x0 ∧
    decode 0x400000000000000000000000000000000#132 = .reserved 0x4 ∧
    decode 0x800000000000000000000000000000000#132 = .reserved 0x8 ∧
    decode 0xc00000000000000000000000000000000#132 = .reserved 0xc ∧
    decode 0xd00000000deadbeef00000000cafebabe#132 = .reserved 0xd ∧
    decode 0xe00000000000000000000000000000000#132 = .reserved 0xe ∧
    decode 0xfffffffffffffffffffffffffffffffff#132 = .reserved 0xf := by decide

/-- Encoding, from the worked encodings of 30_encoding.md R94. -/
theorem test_encode :
    encode (.seedU 0xdeadbeef 0xcafebabe) = 0x100000000deadbeef00000000cafebabe#132 ∧
    encode .drawU = 0x200000000000000000000000000000000#132 ∧
    encode .refillB = 0x700000000000000000000000000000000#132 ∧
    encode (.seedV 1 2) = 0x900000000000000010000000000000002#132 := by decide

/-- The table's numbering of bits: 132 bits, 17 whole bytes, and a row's bits alone. -/
theorem test_table_word :
    decodeTableWord 132 0x900000000000000010000000000000002 = some (.seedV 1 2) ∧
    decodeTableWord 136 0x600000000000000000000000000000000 = some .drawB ∧
    decodeTableWord 136 0x400000000000000000000000000000000 = none := by decide

/-- A word put on the port is the one the next step runs. -/
theorem test_fetch_word :
    ended (step (State.reset.withFetchWord 136 0x300000000000000000000000000000000)) =
      some { State.reset with rsps := [.void] } := by decide

/-! ## Well-formedness -/

/-- Legal parameters, to break one at a time. -/
def goodParams : Params := ⟨64, 32, 8, 4, 2, 2, .fault⟩

theorem test_wf_good : goodParams.wf = true ∧ goodParams.build.isSome = true := by decide

/-- Each static check refuses a set that breaks it alone (00_scope.md R7, R8; 43_vector.md R181). -/
theorem test_wf_refuses_each :
    { goodParams with wU := 0 }.wf = false ∧ { goodParams with wU := 24 }.wf = false ∧
    { goodParams with wB := 12 }.wf = false ∧ { goodParams with wV := 128 }.wf = false ∧
    { goodParams with blockB := 3 }.wf = false ∧ { goodParams with blockB := 0 }.wf = false ∧
    { goodParams with blockV := 5 }.wf = false ∧ { goodParams with blockV := 0 }.wf = false ∧
    { goodParams with lanes := 4 }.wf = false := by decide

/-- No engine is built from those sets (60_exceptions.md R237). -/
theorem test_build_refuses_each :
    { goodParams with wU := 0 }.build = none ∧ { goodParams with wU := 24 }.build = none ∧
    { goodParams with wB := 12 }.build = none ∧ { goodParams with wV := 128 }.build = none ∧
    { goodParams with blockB := 3 }.build = none ∧ { goodParams with blockB := 0 }.build = none ∧
    { goodParams with blockV := 5 }.build = none ∧ { goodParams with blockV := 0 }.build = none ∧
    { goodParams with lanes := 4 }.build = none := by decide

/-! ## Assembler text -/

/-- The examples of 30_encoding.md R92, with decimal operands and a comment. -/
theorem test_assembler :
    assembleLine "SEED.U 0xdeadbeef, 0xcafebabe".toList = .command (.seedU 0xdeadbeef 0xcafebabe) ∧
    assembleLine "DRAW.B".toList = .command .drawB ∧
    assembleLine "REFILL.V -- refill".toList = .command .refillV ∧
    assembleLine "SEED.V 1, 2".toList = .command (.seedV 1 2) ∧
    assembleLine "-- nothing".toList = .empty := by decide

/-- Lines outside the syntax: a lower-case mnemonic, a missing and an unexpected operand, an operand of 2^64. -/
theorem test_assembler_bad :
    assembleLine "draw.b".toList = .bad ∧ assembleLine "SEED.U 1".toList = .bad ∧
    assembleLine "DRAW.U 1".toList = .bad ∧ assembleLine "SEED.B 18446744073709551616, 0".toList = .bad := by decide

/-! ## The recurrence -/

/-- Vectors T3.1 and T3.2 of 95_test_vectors.md, as `(m, o, m2, out)`. -/
def stepVectors : List (Word × Word × Word × Word) :=
  [(0x00000000cafebabe, 0x00000000deadbeef, 0x00657f6ff4fdce99, 0x00657f70d3ab8d88),
   (0x0000000000000001, 0x0000000000000000, 0x0000000000800041, 0x0000000000800041),
   (0x0000000000000000, 0x0000000000000001, 0x0000000000000001, 0x0000000000000002),
   (0xffffffffffffffff, 0xffffffffffffffff, 0xffffffc0007fffc0, 0xffffffc0007fffbf),
   (0x0000000000000000, 0xffffffffffffffff, 0xffffffc000000000, 0xffffffbfffffffff),
   (0x8000000000000000, 0x0000000000000000, 0x8000400000000000, 0x8000400000000000),
   (0x0000000000000000, 0x8000000000000000, 0x8000002000000000, 0x0000002000000000),
   (0x0000010000000000, 0x0000000000000000, 0x8000410000800000, 0x8000410000800000)] ++
  [(0x0000020000000000, 0x0000000000000000, 0x0000020001000000, 0x0000020001000000),
   (0x0000000000010000, 0x0000000000000000, 0x0000008000410000, 0x0000008000410000),
   (0x0000000000020000, 0x0000000000000000, 0x0000010000820001, 0x0000010000820001),
   (0x0000000000000000, 0x0000000002000000, 0x0000000002000000, 0x0000000004000000),
   (0x0000000000000000, 0x0000000004000000, 0x0000000004000001, 0x0000000008000001),
   (0xffffffffffffffff, 0x0000000000000001, 0x00000000007fffc1, 0x00000000007fffc2),
   (0x0123456789abcdef, 0xfedcba9876543210, 0x4c3b73557711e6f7, 0x4b182deded661907),
   (0x00000000deadbeef, 0x00000000deadbeef, 0x006f56e8dcefd4a1, 0x006f56e9bb9d9390)]

theorem test_recurrence : stepVectors.all (fun r => recStep r.1 r.2.1 == r.2.2) = true := by decide

/-! ## Single steps -/

/-- The example seed's first words (95_test_vectors.md section 2). -/
def a0 : Word := 0x00000000deadbeef
def b0 : Word := 0x00000000cafebabe

/-- An engine of the given width everywhere, with blocks of two. -/
def narrow (w : Width) : Config := ⟨w, w, w, ⟨0⟩, ⟨0⟩, .fault⟩

/-- Unit B after `SEED.B` of the example seed with `BLOCK_B = 4`, at a cursor (T5.1). -/
def liveB (cur : Nat) : UnitB :=
  ⟨0x7468cbabbd3333d9, 0xb79573c0d5d38c41,
    [0x00657f70d3ab8d88, 0x006fa8f7e4de4db6, 0xb79f9d48c5b40b5e, 0x2bfe3f6c9306c01a], cur, true⟩

/-- Unit B after one refill more (the last row of T5.1). -/
def liveB2 (cur : Nat) : UnitB :=
  ⟨0x5359a8b6a6b7ed80, 0x8679a87a93469b4f,
    [0x980045fb5c8463b7, 0xa5b8f2fda176d717, 0x089b2128956c4288, 0xd9d3513139fe88cf], cur, true⟩

/-- Unit B after `SEED.B` of the example seed with `BLOCK_B = 2`, at a cursor (T5.2). -/
def smallB (cur : Nat) : UnitB :=
  ⟨0x000a2987efe07f1d, 0x00657f6ff4fdce99, [0x00657f70d3ab8d88, 0x006fa8f7e4de4db6], cur, true⟩

/-- Unit V after `SEED.V` of the example seed with `BLOCK_V = 2`, at a cursor (T6.1). -/
def liveV (cur : Nat) : UnitV :=
  ⟨⟨0x000a2987efe07f1d, 0x000a2987f9391a86⟩, ⟨0x00657f6ff4fdce99, 0x006f56e8c8bcd0f5⟩,
    [⟨0x00657f70d3ab8d88, 0x006f56e993bb8bb3⟩, ⟨0x006fa8f7e4de4db6, 0x00798070c1f5eb7b⟩], cur, true⟩

/-- Unit V after one refill more (the last row of T6.1). -/
def liveV2 (cur : Nat) : UnitV :=
  ⟨⟨0x7468cbabbd3333d9, 0xb7f7cfee2d3575ba⟩, ⟨0xb79573c0d5d38c41, 0x74011b02cdcff293⟩,
    [⟨0xb79f9d48c5b40b5e, 0x740b448ac7090d19⟩, ⟨0x2bfe3f6c9306c01a, 0x2bf8eaf0fb05684d⟩], cur, true⟩

/-- The engine of `State.reset` with every unit seeded with the example seed, at the given cursors. -/
def live (curB curV : Nat) : State :=
  { State.reset with u := ⟨a0, b0, true⟩, b := liveB curB, v := liveV curV, refillsB := 1, refillsV := 1 }

/-- The engine with blocks of two and the given width, every unit seeded with the example seed. -/
def liveNarrow (w : Width) (cur : Nat) : State :=
  { State.resetWith (narrow w) with
    u := ⟨a0, b0, true⟩, b := smallB cur, v := liveV cur, refillsB := 1, refillsV := 1 }

/-- The response of a command, and the unit it left. -/
def answer : Result → Option Response
  | .next t => t.rsps.getLast?
  | _ => none
def leftU : Result → Option UnitU
  | .next t => some t.u
  | _ => none
def leftB : Result → Option (UnitB × Nat)
  | .next t => some (t.b, t.refillsB)
  | _ => none
def leftV : Result → Option (UnitV × Nat)
  | .next t => some (t.v, t.refillsV)
  | _ => none

/-- T4.1, row 0. -/
theorem test_seedU : leftU (exec (.seedU a0 b0) State.reset) = some ⟨a0, b0, true⟩ ∧
    answer (exec (.seedU a0 b0) State.reset) = some .void := by decide

/-- T4.1, row 1. -/
theorem test_drawU_state : leftU (exec .drawU (live 0 0)) = some ⟨0x00657f6ff4fdce99, a0, true⟩ ∧
    answer (exec .drawU (live 0 0)) = some (.data 0x00657f70d3ab8d88) := by decide

/-- T4.4, first draws. -/
theorem test_drawU_truncates :
    answer (exec .drawU (liveNarrow .w32 0)) = some (.data 0xd3ab8d88) ∧
    answer (exec .drawU (liveNarrow .w16 0)) = some (.data 0x8d88) ∧
    answer (exec .drawU (liveNarrow .w8 0)) = some (.data 0x88) ∧
    answer (exec .drawU (liveNarrow .w4 0)) = some (.data 0x8) ∧
    answer (exec .drawU (liveNarrow .w1 0)) = some (.data 0) := by decide

/-- T4.2 and 95_test_vectors.md section 8: REFILL.U is legal before any seed and changes nothing. -/
theorem test_refillU : ended (exec .refillU State.reset) = some { State.reset with rsps := [.void] } ∧
    ended (exec .refillU (live 1 2)) = some { live 1 2 with rsps := [.void] } := by decide

/-- T5.1, first row. -/
theorem test_seedB : leftB (exec (.seedB a0 b0) State.reset) = some (liveB 0, 1) := by decide

/-- T5.2, first row: the smallest unit B. -/
theorem test_seedB_smallest :
    leftB (exec (.seedB a0 b0) (State.resetWith (narrow .w64))) = some (smallB 0, 1) := by decide

/-- T5.1, the draw that refills, and the one before it, which does not. -/
theorem test_drawB_refills_lazily :
    answer (exec .drawB (live 3 0)) = some (.data 0x2bfe3f6c9306c01a) ∧
    leftB (exec .drawB (live 3 0)) = some (liveB 4, 1) ∧
    answer (exec .drawB (live 4 0)) = some (.data 0x980045fb5c8463b7) ∧
    leftB (exec .drawB (live 4 0)) = some (liveB2 1, 2) := by decide

/-- T5.3 and T5.4: the elements of a block, low element first. -/
theorem test_drawB_elements :
    (List.range 4).map (fun e => answer (exec .drawB (liveNarrow .w32 e))) =
      [0xd3ab8d88, 0x00657f70, 0xe4de4db6, 0x006fa8f7].map (fun x => some (.data x)) ∧
    (List.range 8).map (fun e => answer (exec .drawB (liveNarrow .w16 e))) =
      [0x8d88, 0xd3ab, 0x7f70, 0x0065, 0x4db6, 0xe4de, 0xa8f7, 0x006f].map (fun x => some (.data x)) := by decide

/-- T5.5, and T5.6 on an exhausted buffer. -/
theorem test_refillB : leftB (exec .refillB (live 1 0)) = some (liveB2 0, 2) ∧
    leftB (exec .refillB (liveNarrow .w64 2)) =
      some (⟨0x7468cbabbd3333d9, 0xb79573c0d5d38c41, [0xb79f9d48c5b40b5e, 0x2bfe3f6c9306c01a], 0, true⟩, 2) := by
  decide

/-- T6.1, first row. -/
theorem test_seedV : leftV (exec (.seedV a0 b0) State.reset) = some (liveV 0, 1) := by decide

/-- T6.5: equal seed words. -/
theorem test_seedV_equal_words : leftV (exec (.seedV a0 a0) State.reset) =
    some (⟨⟨0x00000000c57804ef, 0x00000000c57804ef⟩, ⟨0x006f56e8dcefd4a1, 0x006f56e8dcefd4a1⟩,
      [⟨0x006f56e9bb9d9390, 0x006f56e9bb9d9390⟩, ⟨0x006f56e9a267d990, 0x006f56e9a267d990⟩], 0, true⟩, 1) := by decide

/-- T6.1: the four draws of a block, and the draw that refills. -/
theorem test_drawV_lanes_and_refill :
    (List.range 5).map (fun e => answer (exec .drawV (live 0 e))) =
      [0x00657f70d3ab8d88, 0x006f56e993bb8bb3, 0x006fa8f7e4de4db6, 0x00798070c1f5eb7b, 0xb79f9d48c5b40b5e].map
        (fun x => some (.data x)) ∧
    leftV (exec .drawV (live 0 4)) = some (liveV2 1, 2) := by decide

/-- T6.3: all eight elements at 32 bits, and the first eight at 16. -/
theorem test_drawV_elements :
    (List.range 8).map (fun e => answer (exec .drawV (liveNarrow .w32 e))) =
      [0xd3ab8d88, 0x00657f70, 0x93bb8bb3, 0x006f56e9, 0xe4de4db6, 0x006fa8f7, 0xc1f5eb7b, 0x00798070].map
        (fun x => some (.data x)) ∧
    (List.range 8).map (fun e => answer (exec .drawV (liveNarrow .w16 e))) =
      [0x8d88, 0xd3ab, 0x7f70, 0x0065, 0x8bb3, 0x93bb, 0x56e9, 0x006f].map (fun x => some (.data x)) := by decide

/-- T6.4. -/
theorem test_refillV : leftV (exec .refillV (live 0 1)) = some (liveV2 0, 2) := by decide

/-- 95_test_vectors.md section 8: the commands that fault on an unseeded unit. -/
theorem test_unseeded_faults :
    stopped (exec .drawU State.reset) = some (.unseeded .u) ∧ stopped (exec .drawB State.reset) = some (.unseeded .b) ∧
    stopped (exec .drawV State.reset) = some (.unseeded .v) ∧ stopped (exec .refillB State.reset) = some (.unseeded .b) ∧
    stopped (exec .refillV State.reset) = some (.unseeded .v) := by decide

/-- 95_test_vectors.md section 8: a second SEED. -/
theorem test_reseed_faults :
    stopped (exec (.seedU 1 2) (live 0 0)) = some (.reseed .u) ∧ stopped (exec (.seedB 3 4) (live 1 0)) = some (.reseed .b) ∧
    stopped (exec (.seedV 2 1) (live 0 0)) = some (.reseed .v) := by decide

/-- 95_test_vectors.md section 8: the all-zero word and the word `0xf` on a seeded engine. -/
theorem test_reserved_faults :
    stopped (step { live 0 0 with cmds := [0] }) = some (.reserved 0x0) ∧
    stopped (step (State.reset.withFetchWord 136 0xf00000000000000000000000000000000)) = some (.reserved 0xf) := by decide

/-- The same engine under the optional policy `reinit` (60_exceptions.md R234). -/
def liveReinit : State := { live 2 3 with cfg := { resetConfig with reseed := .reinit } }

/-- 95_test_vectors.md section 8, `reinit`: the second SEED starts the stream anew. -/
theorem test_reinit : leftB (exec (.seedB a0 b0) liveReinit) = some (liveB 0, 2) ∧
    leftU (exec (.seedU a0 b0) liveReinit) = some ⟨a0, b0, true⟩ := by decide

/-! ## Witnesses: a state and operands that meet the hypotheses of each obligation -/

/-- The live engine with one command waiting. -/
def liveWith (i : Instr) (curB curV : Nat) : State := { live curB curV with cmds := [encode i] }

theorem live_onStreamB (curB curV : Nat) : (live curB curV).OnStreamB a0 b0 1 :=
  ⟨rfl, Nat.le_refl 1, (by decide : ((liveB 0).s0, (liveB 0).s1) = streamPair a0 b0 4),
    (by decide : (liveB 0).blk = streamBlock a0 b0 0 4)⟩

theorem live_onStreamV (curB curV : Nat) : (live curB curV).OnStreamV a0 b0 1 :=
  ⟨rfl, Nat.le_refl 1, (by decide : ((liveV 0).S0.lane0, (liveV 0).S1.lane0) = streamPair a0 b0 2),
    (by decide : ((liveV 0).S0.lane1, (liveV 0).S1.lane1) = streamPair b0 a0 2),
    (by decide : (liveV 0).blk = wideBlock a0 b0 b0 a0 0 2)⟩

/-- Every premise `s.Inv` and every premise on a buffer's length, at the ends of both cursors' ranges. -/
theorem test_wit_invariant : State.reset.Inv ∧ (live 0 0).Inv ∧ (live 4 4).Inv ∧ (liveNarrow .w32 4).Inv ∧
    liveReinit.Inv := by decide

theorem test_wit_ReservedExactlyByUnitAndOp :
    decode 0x8#132 = .reserved 0x0 ∧ decode (0x8#4 ++ 5#128) = .reserved 0x8 ∧ decode (0xC#4 ++ 5#128) = .reserved 0xC ∧
    (0xB#4 ++ 5#128 : CmdWord).extractLsb' 128 2 ≠ 0b00#2 ∧ (0xB#4 ++ 5#128 : CmdWord).extractLsb' 130 2 ≠ 0b11#2 := by
  decide

theorem test_wit_DecodeUndoesEncode : (Instr.seedV 1 2).wf = true ∧ Instr.drawU.wf = true := by decide

theorem test_wit_EncodeGivesTheCanonicalWord :
    (decode (0x5#4 ++ 7#64 ++ 8#64) = .command (.seedB 7 8) ∧ (Instr.seedB 7 8).op = .seed) ∧
    (decode (0x6#4 ++ 9#128) = .command .drawB ∧ Instr.drawB.op ≠ .seed) := by decide

theorem test_wit_EngineIsBuiltExactlyForLegalParameters :
    goodParams.build = some ⟨.w64, .w32, .w8, ⟨1⟩, ⟨0⟩, .fault⟩ ∧
    ended (step (liveWith .drawU 0 0)) =
      some { live 0 0 with u := ⟨0x00657f6ff4fdce99, a0, true⟩, rsps := [.data 0x00657f70d3ab8d88] } := by decide

/-- Both a draw and a SEED of a pair other than zero. -/
theorem test_wit_NonzeroGeneratorStateStaysNonzero :
    (liveWith .drawV 4 4).NonzeroWhereSeeded ∧ State.reset.NonzeroWhereSeeded ∧
    (decode (encode .drawV) = .command .drawV ∧ Instr.drawV.op ≠ .seed ∧
      leftV (step (liveWith .drawV 4 4)) = some (liveV2 1, 2)) ∧
    (decode (encode (.seedU 0 1)) = .command (.seedU 0 1) ∧ (Instr.seedU 0 1).operands ≠ (0, 0) ∧
      leftU (step { State.reset with cmds := [encode (.seedU 0 1)] }) = some ⟨0, 1, true⟩) := by
  refine ⟨⟨?_, ?_, ?_⟩, ⟨?_, ?_, ?_⟩, ?_, ?_⟩ <;> decide

theorem test_wit_ZeroSeedGivesZeroForEver : ({ State.reset with u := ⟨0, 0, true⟩ } : State).u = ⟨0, 0, true⟩ := rfl

/-- The unseeded and the seeded case, with both policies where the policy is a premise. -/
theorem test_wit_units_seeded_and_unseeded :
    (State.reset.u.seeded = false ∧ State.reset.b.seeded = false ∧ State.reset.v.seeded = false) ∧
    ((live 0 0).u.seeded = true ∧ (live 0 0).b.seeded = true ∧ (live 0 0).v.seeded = true) ∧
    (live 0 0).cfg.reseed = .fault ∧ liveReinit.cfg.reseed = .reinit := by decide

/-- SeedUStoresThePair, DrawUStepsAndSwaps, RefillUChangesNothing, DrawsOfUFollowTheStream. -/
theorem test_wit_unitU : State.reset.u.seeded = false ∧
    ((live 0 0).u.seeded = true ∧ (live 0 0).cfg.reseed = .fault) ∧
    ({ State.reset with u := ⟨0, 0, true⟩ } : State).u = ⟨0, 0, true⟩ := by decide

/-- SeedBStoresThePairAndRefills, RefillBRunsAWholeRefill, RefillOfBIsLazy (also at `n` a multiple of `ITEMS_B`) and
DrawsOfBFollowTheStream. -/
theorem test_wit_seedB_and_refillB :
    (State.reset.b.blk.length = State.reset.cfg.blockB.words ∧ State.reset.b.seeded = false) ∧
    ((live 4 0).b.blk.length = (live 4 0).cfg.blockB.words ∧ (live 4 0).b.seeded = true ∧
      (live 4 0).cfg.reseed = .fault) ∧
    ((live 0 0).b.blk.length = (live 0 0).cfg.blockB.words ∧ (live 0 0).b.seeded = true ∧ (live 0 0).b.cur = 0) ∧
    4 % State.reset.cfg.itemsB = 0 ∧ 8 % State.reset.cfg.itemsB = 0 := by decide

/-- RefillBRunsPairedSteps: a buffer of the least size and one of another size. -/
theorem test_wit_RefillBRunsPairedSteps :
    (smallB 1).blk.length = BlockSize.words ⟨0⟩ ∧ (liveB 0).blk.length = BlockSize.words ⟨1⟩ := by decide

/-- DrawBAnswersTheItemAtTheCursor: the unseeded unit, the cursor at 0, at the last item and past it. -/
theorem test_wit_DrawBAnswersTheItemAtTheCursor :
    (State.reset.Inv ∧ State.reset.b.seeded = false) ∧
    ((live 0 0).Inv ∧ (live 0 0).b.seeded = true ∧ (live 0 0).b.cur < (live 0 0).cfg.itemsB) ∧
    ((live 3 0).Inv ∧ (live 3 0).b.seeded = true ∧ (live 3 0).b.cur < (live 3 0).cfg.itemsB) ∧
    ((live 4 0).Inv ∧ (live 4 0).b.seeded = true ∧ (live 4 0).b.cur = (live 4 0).cfg.itemsB) := by decide

/-- UnitBReproducesUnitU: the two engines may differ. -/
theorem test_wit_UnitBReproducesUnitU :
    State.reset.cfg.wU = .w64 ∧ (State.resetWith (narrow .w64)).cfg.wB = .w64 ∧ State.reset.u.seeded = false ∧
    (State.resetWith (narrow .w64)).b.seeded = false ∧
    (State.resetWith (narrow .w64)).b.blk.length = (State.resetWith (narrow .w64)).cfg.blockB.words := by decide

/-- EveryStepKeepsBOnItsStream: a draw that refills and a step that does not touch unit B. -/
theorem test_wit_EveryStepKeepsBOnItsStream :
    (liveWith .drawB 4 0).cfg.reseed = .fault ∧ (liveWith .drawB 4 0).OnStreamB a0 b0 1 ∧
    leftB (step (liveWith .drawB 4 0)) = some (liveB2 1, 2) ∧ leftB (step (liveWith .drawU 4 0)) = some (liveB 4, 1) :=
  ⟨rfl, live_onStreamB 4 0, by decide, by decide⟩

theorem test_wit_RefillBDiscardsUnreadItems : (live 1 0).OnStreamB a0 b0 1 := live_onStreamB 1 0

theorem test_wit_WideStepActsLaneByLane :
    laneOf ⟨1, 2⟩ 0 = laneOf ⟨1, 9⟩ 0 ∧ laneOf ⟨3, 2⟩ 1 = laneOf ⟨7, 2⟩ 1 := by decide

/-- SeedVPacksBothLanesAndRefills, RefillVRunsAWholeRefill, DrawsOfVInterleaveTheLanes. -/
theorem test_wit_seedV_and_refillV :
    (State.reset.v.blk.length = State.reset.cfg.blockV.words ∧ State.reset.v.seeded = false) ∧
    ((live 0 4).v.blk.length = (live 0 4).cfg.blockV.words ∧ (live 0 4).v.seeded = true ∧
      (live 0 4).cfg.reseed = .fault) := by decide

theorem test_wit_RefillVRunsPairedWideSteps : (liveV 0).blk.length = BlockSize.words ⟨0⟩ := by decide

/-- DrawVAnswersTheItemAtTheCursor: the unseeded unit, the cursor at 0, at the last item and past it. -/
theorem test_wit_DrawVAnswersTheItemAtTheCursor :
    (State.reset.Inv ∧ State.reset.v.seeded = false) ∧
    ((live 0 0).Inv ∧ (live 0 0).v.seeded = true ∧ (live 0 0).v.cur < (live 0 0).cfg.itemsV) ∧
    ((live 0 3).Inv ∧ (live 0 3).v.seeded = true ∧ (live 0 3).v.cur < (live 0 3).cfg.itemsV) ∧
    ((live 0 4).Inv ∧ (live 0 4).v.seeded = true ∧ (live 0 4).v.cur = (live 0 4).cfg.itemsV) := by decide

theorem test_wit_EveryStepKeepsVOnItsStreams :
    (liveWith .drawV 0 4).cfg.reseed = .fault ∧ (liveWith .drawV 0 4).OnStreamV a0 b0 1 ∧
    leftV (step (liveWith .drawV 0 4)) = some (liveV2 1, 2) :=
  ⟨rfl, live_onStreamV 0 4, by decide⟩

/-- Unit V as `SEED.V a0, a0` leaves it (T6.5). -/
def equalV : UnitV :=
  ⟨⟨0x00000000c57804ef, 0x00000000c57804ef⟩, ⟨0x006f56e8dcefd4a1, 0x006f56e8dcefd4a1⟩,
    [⟨0x006f56e9bb9d9390, 0x006f56e9bb9d9390⟩, ⟨0x006f56e9a267d990, 0x006f56e9a267d990⟩], 0, true⟩

theorem test_wit_EqualLanesStayEqual :
    { liveWith .drawV 0 0 with v := equalV }.EqualLanes ∧ decode (encode .drawV) = .command .drawV ∧
    leftV (step { liveWith .drawV 0 0 with v := equalV }) = some ({ equalV with cur := 1 }, 1) :=
  ⟨⟨rfl, rfl, by decide⟩, by decide, by decide⟩

/-- ElementReadOfBufferB and ElementReadOfBufferV: the first element, the last, and the one past it. -/
theorem test_wit_element_reads :
    ((smallB 0).blk.length = BlockSize.words ⟨0⟩ ∧ memReadB (smallB 0).blk 0 .w32 = some 0xd3ab8d88 ∧
      memReadB (smallB 0).blk 3 .w32 = some 0x006fa8f7 ∧ memReadB (smallB 0).blk 4 .w32 = none) ∧
    ((liveV 0).blk.length = BlockSize.words ⟨0⟩ ∧ memReadV (liveV 0).blk 0 .w32 = some 0xd3ab8d88 ∧
      memReadV (liveV 0).blk 7 .w32 = some 0x00798070 ∧ memReadV (liveV 0).blk 8 .w32 = none) := by decide

theorem test_wit_BufferWriteSetsOneWord :
    (0 < (liveB 0).blk.length ∧ 3 < (liveB 0).blk.length) ∧ (0 < (liveV 0).blk.length ∧ 1 < (liveV 0).blk.length) := by
  decide

/-- EveryStepKeepsTheInvariant: the draw that refills, in both buffered units, at cursors at the top of their range. -/
theorem test_wit_EveryStepKeepsTheInvariant :
    ((liveWith .drawB 4 4).Inv ∧ leftB (step (liveWith .drawB 4 4)) = some (liveB2 1, 2)) ∧
    ((liveWith .drawV 4 4).Inv ∧ leftV (step (liveWith .drawV 4 4)) = some (liveV2 1, 2)) := by decide

/-- OnlySeedSetsAFlagAndNothingClearsIt, StepRunsTheDecodedCommand: a waiting word that decodes and completes. -/
theorem test_wit_waiting_command :
    (liveWith .drawB 0 0).cmds = [encode .drawB] ∧ decode (encode .drawB) = .command .drawB ∧
    leftB (step (liveWith .drawB 0 0)) = some (liveB 1, 1) ∧
    leftU (step { State.reset with cmds := [encode (.seedU 1 2)] }) = some ⟨1, 2, true⟩ := by decide

/-- BufferedUnitsFollowTheStateMachine: each row of the table, on units B and V, at the cursors where rows meet. -/
theorem test_wit_BufferedUnitsFollowTheStateMachine :
    (∀ x ∈ [UnitId.b, UnitId.v], x ≠ .u ∧ State.reset.phase x = .unseeded ∧
      ((live 0 0).phase x = .ready ∧ (live 0 0).cursor x < (live 0 0).items x - 1) ∧
      ((live 2 2).phase x = .ready ∧ (live 2 2).cursor x < (live 2 2).items x - 1) ∧
      ((live 3 3).phase x = .ready ∧ (live 3 3).cursor x = (live 3 3).items x - 1) ∧
      (live 4 4).phase x = .exhausted ∧ (live 4 4).phase x ≠ .unseeded ∧ (live 4 4).cfg.reseed = .fault) ∧
    State.reset.Inv ∧ (live 0 0).Inv ∧ (live 2 2).Inv ∧ (live 3 3).Inv ∧ (live 4 4).Inv := by decide

theorem test_wit_IdleEngineKeepsItsState : (live 2 1).cmds = [] := rfl

/-- ReservedWordFaults: each of the two reasons. -/
theorem test_wit_ReservedWordFaults :
    ({ live 0 0 with cmds := [0x8#4 ++ 1#128] } : State).cmds = [0x8#4 ++ 1#128] ∧
    (0x8#4 ++ 1#128 : CmdWord).extractLsb' 128 2 = 0b00#2 ∧ (0xD#4 ++ 1#128 : CmdWord).extractLsb' 130 2 = 0b11#2 := by
  decide

/-- FaultsAreExactlyTheTable: a state for each row of the table, and one where no row holds. -/
theorem test_wit_FaultsAreExactlyTheTable :
    ((live 0 0).Inv ∧ State.reset.Inv) ∧
    (stopped (step { live 0 0 with cmds := [0xC#4 ++ 0#128] }) = some (.reserved 0xC) ∧
      stopped (step { State.reset with cmds := [encode .refillV] }) = some (.unseeded .v) ∧
      stopped (step (liveWith (.seedB 1 2) 0 0)) = some (.reseed .b) ∧
      leftB (step (liveWith .drawB 0 0)) = some (liveB 1, 1)) := by decide

/-- CommandCompletesExactlyWhenAllowed: an allowed and a forbidden command, for each operation. -/
theorem test_wit_CommandCompletesExactlyWhenAllowed :
    State.reset.flags.allow .fault (.seedV 1 2) = true ∧ (live 0 0).flags.allow .fault (.seedV 1 2) = false ∧
    (live 0 0).flags.allow .reinit (.seedV 1 2) = true ∧ (live 0 0).flags.allow .fault .drawB = true ∧
    State.reset.flags.allow .fault .drawB = false ∧ State.reset.flags.allow .fault .refillU = true ∧
    State.reset.flags.allow .fault .refillB = false := by decide

/-- RunIsSafeExactlyWhenTheHostKeepsItsContract: command lists on both sides of the contract. -/
theorem test_wit_RunIsSafeExactlyWhenTheHostKeepsItsContract :
    State.reset.flags.keepsContract .fault ([.seedB 1 2, .drawB, .refillB].map encode) = true ∧
    State.reset.flags.keepsContract .fault ([.seedB 1 2, .drawB, .seedB 3 4].map encode) = false ∧
    State.reset.flags.keepsContract .fault [0] = false := by decide

/-- EveryCommandGivesOneResponse, CommandLeavesOtherUnitsAlone: commands that complete, one for each operation. -/
theorem test_wit_completing_commands :
    answer (exec .drawV (liveNarrow .w8 3)) = some (.data 0x00000000000000d3) ∧
    answer (exec .refillB (live 2 2)) = some .void ∧ answer (exec (.seedU 1 2) State.reset) = some .void := by decide

/-- RunAnswersEveryCommandInOrder: two words with different responses, and both of their places in the list. -/
theorem test_wit_RunAnswersEveryCommandInOrder :
    ended (Host.Core.run core ([.refillU, .drawB].map encode).length ((live 0 0).sends [.refillU, .drawB])) =
      some { live 1 0 with rsps := [.void, .data 0x00657f70d3ab8d88] } ∧
    ((live 0 0).sends [.refillU, .drawB]).cmds[0]? = some (encode .refillU) ∧
    ((live 0 0).sends [.refillU, .drawB]).cmds[1]? = some (encode .drawB) := by decide

/-- UnitsShareNoState: two states that agree on unit B alone. -/
theorem test_wit_UnitsShareNoState :
    (live 1 0).cfg = ({ State.reset with b := liveB 1 } : State).cfg ∧
    (live 1 0).b = ({ State.reset with b := liveB 1 } : State).b ∧ (live 1 0).u ≠ State.reset.u ∧
    answer (exec .drawB (live 1 0)) = some (.data 0x006fa8f7e4de4db6) ∧
    ((live 1 0).cfg = (liveWith .drawU 1 0).cfg ∧ (live 1 0).b = (liveWith .drawU 1 0).b ∧
      stopped (exec (.seedB 1 2) (live 1 0)) = some (.reseed .b)) := by decide

/-- CommandsToDifferentUnitsCommute: a draw of unit U, then a draw of unit B. -/
theorem test_wit_CommandsToDifferentUnitsCommute :
    Instr.drawU.unit ≠ Instr.drawB.unit ∧
    ended (exec .drawU (live 0 0)) =
      some { live 0 0 with u := ⟨0x00657f6ff4fdce99, a0, true⟩, rsps := [.data 0x00657f70d3ab8d88] } ∧
    leftB (exec .drawB { live 0 0 with u := ⟨0x00657f6ff4fdce99, a0, true⟩, rsps := [.data 0x00657f70d3ab8d88] }) =
      some (liveB 1, 1) := by decide

theorem test_wit_SecondSeedFollowsThePolicy :
    (∀ x ∈ [UnitId.u, UnitId.b, UnitId.v], (live 0 0).seeded x = true ∧ liveReinit.seeded x = true) ∧
    ((live 0 0).Inv ∧ (live 0 0).cfg.reseed = .fault) ∧ (liveReinit.Inv ∧ liveReinit.cfg.reseed = .reinit) := by decide

end Sys2Proof.Tests
end

section
/-! PROOF. Element reads of the two buffers (20_memory.md R56, R57): where a read has a value, and which bits of which
word its value is. -/

namespace Sys2Proof.Machine

theorem element_getLsbD (w : Width) (j : Nat) (x : Word) {i : Nat} (hi : i < w.bits) :
    (element w j x).getLsbD i = x.getLsbD (w.bits * j + i) := by
  simp [element, hi]

/-- The domain of an element read: the elements that the words of the buffer hold. -/
theorem memReadB_isSome_iff (blk : List Word) (e : Nat) (w : Width) :
    (memReadB blk e w).isSome = true ↔ e < blk.length * w.perWord := by
  rw [memReadB_eq, Option.isSome_map, isSome_getElem?, Nat.div_lt_iff_lt_mul w.perWord_pos]

/-- As `memReadB_isSome_iff`, each wide word holding two 64-bit words. -/
theorem memReadV_isSome_iff (blk : List Wide) (e : Nat) (w : Width) :
    (memReadV blk e w).isSome = true ↔ e < blk.length * 2 * w.perWord := by
  rw [memReadV_eq, Option.isSome_map, isSome_getElem?, Nat.div_lt_iff_lt_mul two_pos,
    Nat.div_lt_iff_lt_mul w.perWord_pos]

theorem memReadB_eq_some {blk : List Word} {e : Nat} {w : Width} {x : BitVec w.bits} :
    memReadB blk e w = some x ↔ ∃ y, blk[e / w.perWord]? = some y ∧ element w (e % w.perWord) y = x := by
  rw [memReadB_eq, Option.map_eq_some_iff]

theorem memReadV_eq_some {blk : List Wide} {e : Nat} {w : Width} {x : BitVec w.bits} :
    memReadV blk e w = some x ↔
      ∃ y, blk[e / w.perWord / 2]? = some y ∧ element w (e % w.perWord) (laneOf y (e / w.perWord % 2)) = x := by
  rw [memReadV_eq, Option.map_eq_some_iff]

/-- Settles O35: the domain is that of the list lookup, and the value is an `element` of the word looked up. -/
theorem elementReadOfBufferB : Obligations.ElementReadOfBufferB := by
  intro blk k w e hlen
  refine ⟨hlen ▸ memReadB_isSome_iff blk e w, fun x hx => ?_⟩
  obtain ⟨y, hy, rfl⟩ := memReadB_eq_some.mp hx
  exact ⟨y, hy, fun i hi => element_getLsbD w _ y hi⟩

/-- Settles O36: as O35, the word being a lane of the wide word looked up. -/
theorem elementReadOfBufferV : Obligations.ElementReadOfBufferV := by
  intro blk k w e hlen
  refine ⟨hlen ▸ memReadV_isSome_iff blk e w, fun x hx => ?_⟩
  obtain ⟨y, hy, rfl⟩ := memReadV_eq_some.mp hx
  exact ⟨y, hy, fun i hi => element_getLsbD w _ (laneOf y _) hi⟩

end Sys2Proof.Machine
end

section
/-! PROOF. The first hexadecimal digit of a command word: which digit each command has, what the decoder makes of a word
by its digit, and the opcode map's masks and matches as tests on the digit (30_encoding.md R85 to R88). -/

namespace Sys2Proof

/-! ## Commands by unit and operation -/

@[simp] theorem unit_mkInstr (x : UnitId) (o : OpId) (a b : Word) : (mkInstr x o a b).unit = x := by
  cases x <;> cases o <;> rfl

@[simp] theorem op_mkInstr (x : UnitId) (o : OpId) (a b : Word) : (mkInstr x o a b).op = o := by
  cases x <;> cases o <;> rfl

theorem operands_of_op_ne_seed {i : Instr} (h : i.op ≠ .seed) : i.operands = (0, 0) := by
  cases i with
  | seedU | seedB | seedV => exact absurd rfl h
  | drawU | refillU | drawB | refillB | drawV | refillV => rfl

theorem mkInstr_congr_of_ne_seed {o : OpId} (h : o ≠ .seed) (x : UnitId) (a b c d : Word) :
    mkInstr x o a b = mkInstr x o c d := by
  cases o with
  | seed => exact absurd rfl h
  | draw | refill => cases x <;> rfl

theorem mnemonic_mkInstr_congr (x : UnitId) (o : OpId) (a b c d : Word) :
    (mkInstr x o a b).mnemonic = (mkInstr x o c d).mnemonic := by
  cases x <;> cases o <;> rfl

/-- The unit and operation that a mnemonic names, as the assembler reads them (30_encoding.md R92). -/
def unitOpOfMnemonic (m : String) : Option (UnitId × OpId) :=
  (Machine.parseOp m.toList).bind fun p => (Machine.parseUnit p.2).map fun q => (q.1, p.1)

theorem unitOpOfMnemonic_mnemonic (i : Instr) : unitOpOfMnemonic i.mnemonic = some (i.unit, i.op) := by
  cases i <;> simp [unitOpOfMnemonic, Instr.mnemonic, Machine.parseOp, Machine.parseUnit, Instr.unit, Instr.op]

/-- Two commands with one mnemonic differ at most in their operands. -/
theorem unit_op_eq_of_mnemonic_eq {i j : Instr} (h : i.mnemonic = j.mnemonic) : i.unit = j.unit ∧ i.op = j.op := by
  have hpair : some (i.unit, i.op) = some (j.unit, j.op) := by
    rw [← unitOpOfMnemonic_mnemonic, ← unitOpOfMnemonic_mnemonic, h]
  exact Prod.mk.inj (Option.some.inj hpair)

/-! ## The first digit -/

/-- The first hexadecimal digit of a command: the codes of its unit and its operation (30_encoding.md R82, R83, R86). -/
def firstDigit (x : UnitId) (o : OpId) : BitVec 4 := x.code ++ o.code

theorem cmdTop_append (d : BitVec 4) (x : BitVec 128) : cmdTop (d ++ x) = d := BitVec.extractLsb'_append_eq_left

theorem cmdTop_append_low (w : CmdWord) : cmdTop w ++ w.extractLsb' 0 128 = w :=
  BitVec.extractLsb'_append_extractLsb' (w := 4) (len := 128)

/-- A row's test on a word reads the word's first digit alone (30_encoding.md R86). -/
theorem and_topDigit_eq_iff (w : CmdWord) (d : BitVec 4) : w &&& topDigit 0xF = topDigit d ↔ cmdTop w = d := by
  have hand : w &&& topDigit 0xF = topDigit (cmdTop w) := by
    calc w &&& topDigit 0xF
        = (cmdTop w ++ w.extractLsb' 0 128) &&& (BitVec.allOnes 4 ++ 0#128) := by rw [cmdTop_append_low]; rfl
      _ = cmdTop w ++ 0#128 := by rw [BitVec.and_append, BitVec.and_allOnes, BitVec.and_zero]
  rw [hand]
  exact BitVec.append_left_inj _

/-! ## The decoder by the first digit -/

theorem decode_packCmd_code (x : UnitId) (o : OpId) (a b : Word) :
    decode (packCmd x.code o.code a b) = .command (mkInstr x o a b) := by
  rw [decode_packCmd, decodeUnit_code, decodeOp_code]

/-- A word written as a command's digit and two operand words (30_encoding.md R84). -/
theorem decode_firstDigit_operands (x : UnitId) (o : OpId) (a b : Word) :
    decode (firstDigit x o ++ a ++ b) = .command (mkInstr x o a b) :=
  decode_packCmd_code x o a b

theorem decode_firstDigit_append (x : UnitId) (o : OpId) (y : BitVec 128) :
    decode (firstDigit x o ++ y) = .command (mkInstr x o (y.extractLsb' 64 64) (y.extractLsb' 0 64)) := by
  have hx : (firstDigit x o).extractLsb' 2 2 = x.code := BitVec.extractLsb'_append_eq_left
  have ho : (firstDigit x o).extractLsb' 0 2 = o.code := BitVec.extractLsb'_append_eq_right
  rw [digit_append_eq_packCmd, hx, ho, decode_packCmd_code]

/-- DRAW and REFILL ignore the low 128 bits (30_encoding.md R85). -/
theorem decode_firstDigit_append_of_ne_seed {o : OpId} (h : o ≠ .seed) (x : UnitId) (y : BitVec 128) :
    decode (firstDigit x o ++ y) = .command (mkInstr x o 0 0) := by
  rw [decode_firstDigit_append, mkInstr_congr_of_ne_seed h]

theorem decodeUnit_eq_some (c : BitVec 2) (x : UnitId) : decodeUnit c = some x ↔ c = x.code := by
  cases x <;> revert c <;> decide

theorem decodeOp_eq_some (c : BitVec 2) (o : OpId) : decodeOp c = some o ↔ c = o.code := by
  cases o <;> revert c <;> decide

theorem cmdTop_eq_unit_append_op (w : CmdWord) : cmdTop w = cmdUnit w ++ cmdOp w := by
  rw [← cmdTop_packCmd, packCmd_fields]

/-- All that the decoder can answer: a command, whose digit the word then has, or the word's digit as reserved
(30_encoding.md R86, R88). -/
theorem decode_cases (w : CmdWord) :
    (∃ x o, cmdTop w = firstDigit x o ∧ decode w = .command (mkInstr x o (cmdA w) (cmdB w))) ∨
      decode w = .reserved (cmdTop w) := by
  unfold decode
  split
  · next x o hx ho =>
    rw [decodeUnit_eq_some] at hx
    rw [decodeOp_eq_some] at ho
    exact .inl ⟨x, o, by rw [cmdTop_eq_unit_append_op, hx, ho]; rfl, rfl⟩
  · exact .inr rfl

theorem cmdTop_of_decode {w : CmdWord} {i : Instr} (h : decode w = .command i) :
    cmdTop w = firstDigit i.unit i.op := by
  obtain ⟨x, o, htop, hd⟩ | hd := decode_cases w
  · cases hd.symm.trans h
    rw [unit_mkInstr, op_mkInstr, htop]
  · cases hd.symm.trans h

theorem decode_eq_reserved {w : CmdWord} (h : ∀ x o, cmdTop w ≠ firstDigit x o) : decode w = .reserved (cmdTop w) :=
  (decode_cases w).resolve_left fun ⟨x, o, htop, _⟩ => h x o htop

/-- The seven digits that no command has (30_encoding.md R87). -/
theorem ne_firstDigit_of_mem_reserved (x : UnitId) (o : OpId) :
    ∀ d ∈ [0x0#4, 0x4#4, 0x8#4, 0xC#4, 0xD#4, 0xE#4, 0xF#4], d ≠ firstDigit x o := by
  cases x <;> cases o <;> decide

/-! ## The opcode map -/

/-- Every row of the opcode map is that of one unit and one operation. -/
theorem opcodeMap_row {r : OpcodeRow} (h : r ∈ opcodeMap) :
    ∃ x o, r = ⟨(mkInstr x o 0 0).mnemonic, topDigit (firstDigit x o), topDigit 0xF⟩ := by
  simp only [opcodeMap, List.mem_cons, List.not_mem_nil, or_false] at h
  obtain rfl | rfl | rfl | rfl | rfl | rfl | rfl | rfl | rfl := h
  · exact ⟨.u, .seed, rfl⟩
  · exact ⟨.u, .draw, rfl⟩
  · exact ⟨.u, .refill, rfl⟩
  · exact ⟨.b, .seed, rfl⟩
  · exact ⟨.b, .draw, rfl⟩
  · exact ⟨.b, .refill, rfl⟩
  · exact ⟨.v, .seed, rfl⟩
  · exact ⟨.v, .draw, rfl⟩
  · exact ⟨.v, .refill, rfl⟩

/-- The words that decode to a command of one mnemonic are those with its digit. -/
theorem cmdTop_eq_firstDigit_iff (w : CmdWord) (x : UnitId) (o : OpId) :
    cmdTop w = firstDigit x o ↔ ∃ i, decode w = .command i ∧ i.mnemonic = (mkInstr x o 0 0).mnemonic := by
  constructor
  · intro h
    have hw : decode w = decode (firstDigit x o ++ w.extractLsb' 0 128) := by rw [← h, cmdTop_append_low]
    exact ⟨_, hw.trans (decode_firstDigit_append x o _), mnemonic_mkInstr_congr x o _ _ _ _⟩
  · rintro ⟨i, hi, hm⟩
    obtain ⟨hunit, hop⟩ := unit_op_eq_of_mnemonic_eq hm
    rw [cmdTop_of_decode hi, hunit, hop, unit_mkInstr, op_mkInstr]

/-- Settles O1: each digit of the map is `firstDigit` of a unit and an operation, the other seven are of none, and a
row's test and its mnemonic both say that the word has the row's digit. -/
theorem firstDigitSelectsTheCommand : Obligations.FirstDigitSelectsTheCommand := by
  intro a b y
  refine ⟨decode_firstDigit_operands .u .seed a b, decode_firstDigit_append .u .draw y,
    decode_firstDigit_append .u .refill y, decode_firstDigit_operands .b .seed a b,
    decode_firstDigit_append .b .draw y, decode_firstDigit_append .b .refill y,
    decode_firstDigit_operands .v .seed a b, decode_firstDigit_append .v .draw y,
    decode_firstDigit_append .v .refill y, fun d hd => ?_, fun r hr => ?_⟩
  · have htop : cmdTop (d ++ y) = d := cmdTop_append d y
    have hres : decode (d ++ y) = .reserved (cmdTop (d ++ y)) :=
      decode_eq_reserved fun x o => htop.symm ▸ ne_firstDigit_of_mem_reserved x o d hd
    rwa [htop] at hres
  · obtain ⟨x, o, rfl⟩ := opcodeMap_row hr
    exact ⟨rfl, fun w => (and_topDigit_eq_iff w _).trans (cmdTop_eq_firstDigit_iff w x o)⟩

/-! ## Operand-free commands -/

/-- The canonical word of a DRAW or REFILL is its digit and zeros (30_encoding.md R85). -/
theorem encode_of_op_ne_seed {i : Instr} (h : i.op ≠ .seed) : encode i = topDigit (firstDigit i.unit i.op) := by
  rw [encode, operands_of_op_ne_seed h]
  exact BitVec.append_assoc

theorem exists_firstDigit_eq_of_mem_operandFree {d : BitVec 4}
    (h : d ∈ [0x2#4, 0x3#4, 0x6#4, 0x7#4, 0xA#4, 0xB#4]) : ∃ x o, o ≠ .seed ∧ firstDigit x o = d := by
  simp only [List.mem_cons, List.not_mem_nil, or_false] at h
  obtain rfl | rfl | rfl | rfl | rfl | rfl := h
  · exact ⟨.u, .draw, nofun, rfl⟩
  · exact ⟨.u, .refill, nofun, rfl⟩
  · exact ⟨.b, .draw, nofun, rfl⟩
  · exact ⟨.b, .refill, nofun, rfl⟩
  · exact ⟨.v, .draw, nofun, rfl⟩
  · exact ⟨.v, .refill, nofun, rfl⟩

/-- Settles O5: the digit is that of a unit and an operation other than SEED, which `mkInstr` makes the command of. -/
theorem operandBitsOfDrawAndRefillAreIgnored : Obligations.OperandBitsOfDrawAndRefillAreIgnored := by
  intro d hd
  obtain ⟨x, o, ho, rfl⟩ := exists_firstDigit_eq_of_mem_operandFree hd
  have hop : (mkInstr x o 0 0).op ≠ .seed := by rwa [op_mkInstr]
  refine ⟨mkInstr x o 0 0, hop, operands_of_op_ne_seed hop, decode_firstDigit_append_of_ne_seed ho x, ?_⟩
  rw [encode_of_op_ne_seed hop, unit_mkInstr, op_mkInstr]
  rfl

end Sys2Proof
end

section
/-! PROOF. The recurrence step on the numbers of its words (40_recurrence.md). -/

namespace Sys2Proof.Machine

/-- The new value of the mutated word as a number: each shift of R110 is an operator of R11 on natural numbers. -/
theorem toNat_recStep_fst (m o : Word) :
    let t := m.toNat ^^^ (m.toNat * 2 ^ 23 % 2 ^ 64)
    (recStep m o).1.toNat = t ^^^ o.toNat ^^^ (t / 2 ^ 17) ^^^ (o.toNat / 2 ^ 26) := by
  have hleft : (m <<< 23).toNat = m.toNat * 2 ^ 23 % 2 ^ 64 := by rw [BitVec.toNat_shiftLeft, Nat.shiftLeft_eq]
  have hright (x : Word) (k : Nat) : (x >>> k).toNat = x.toNat / 2 ^ k := by
    rw [BitVec.toNat_ushiftRight, Nat.shiftRight_eq_div_pow]
  simp only [recStep, BitVec.toNat_xor, hleft, hright]

/-- The output word is the sum of the mutated word's new value and the other word (40_recurrence.md R110). -/
theorem recStep_snd (m o : Word) : (recStep m o).2 = (recStep m o).1 + o := rfl

/-- Settles O9: the operators of R110 on words are those of R11 on their numbers, and the sum of two words wraps. -/
theorem recurrenceInPlainArithmetic : Obligations.RecurrenceInPlainArithmetic := by
  refine ⟨fun m o => ⟨toNat_recStep_fst m o, ?_⟩, by decide⟩
  rw [recStep_snd, BitVec.toNat_add, toNat_recStep_fst]

end Sys2Proof.Machine
end

section
/-! PROOF. The three commands of unit U, the Unbuffered Generator (41_unbuffered.md R131 to R133): what each one answers
on an unseeded and on a seeded unit. -/

namespace Sys2Proof.Machine

/-! ## SEED.U -/

theorem exec_seedU_of_unseeded {s : State} (h : s.u.seeded = false) (a b : Word) :
    exec (.seedU a b) s = .next ((s.putU ⟨a, b, true⟩).respond .void) :=
  whenSeedAllowed_of_false (x := .u) h _

theorem exec_seedU_of_seeded {s : State} (h : s.u.seeded = true) (hp : s.cfg.reseed = .fault) (a b : Word) :
    exec (.seedU a b) s = .fault (.reseed .u) :=
  whenSeedAllowed_of_seeded (x := .u) h hp _

/-! ## DRAW.U -/

theorem exec_drawU (s : State) : exec .drawU s = execDrawU s := rfl

theorem exec_drawU_of_unseeded {s : State} (h : s.u.seeded = false) : exec .drawU s = .fault (.unseeded .u) :=
  whenSeeded_of_false (x := .u) h _

theorem exec_drawU_of_seeded {s : State} (h : s.u.seeded = true) :
    exec .drawU s = .next ((s.putU ⟨(recStep s.u.s1 s.u.s0).1, s.u.s0, true⟩).respond
      (.data (bitField (recStep s.u.s1 s.u.s0).2 s.cfg.wU 0))) := by
  rw [exec_drawU, execDrawU_eq_next, h]
  exact ⟨rfl, rfl⟩

/-- The lowest bit field of a word is the word modulo `2^W` (41_unbuffered.md R134). -/
theorem bitField_lowest (x : Word) (w : Width) : bitField x w 0 = BitVec.ofNat 64 (x.toNat % 2 ^ w.bits) := by
  rw [bitField, Nat.mul_zero, Nat.pow_zero, Nat.div_one]

/-- The zero state is a fixed point of the recurrence, and its output is zero (40_recurrence.md R119). -/
theorem recStep_zero : recStep 0 0 = (0, 0) := by decide

theorem bitField_zero (w : Width) (j : Nat) : bitField 0 w j = 0 := by
  simp [bitField]

/-- A draw on the zero state answers 0 and leaves the unit as it is (41_unbuffered.md R132). -/
theorem exec_drawU_of_zero {s : State} (h : s.u = ⟨0, 0, true⟩) : exec .drawU s = .next (s.respond (.data 0)) := by
  have hseeded : s.u.seeded = true := by rw [h]
  have hkeep : s.putU ⟨0, 0, true⟩ = s := by rw [← h]; rfl
  rw [exec_drawU_of_seeded hseeded, h, recStep_zero, bitField_zero, hkeep]

/-! ## REFILL.U -/

theorem exec_refillU (s : State) : exec .refillU s = .next (s.respond .void) := rfl

/-! ## The obligations -/

/-- Settles O14: the digit is SEED.U's, and the flag decides between the store and the fault. -/
theorem seedUStoresThePair : Obligations.SeedUStoresThePair := by
  intro a b s
  exact ⟨decode_firstDigit_operands .u .seed a b, fun h => exec_seedU_of_unseeded h a b,
    fun h hp => exec_seedU_of_seeded h hp a b, exec_drawU_of_zero⟩

/-- Settles O15: the digit is DRAW.U's, and the word answered is the lowest bit field of the recurrence's output. -/
theorem drawUStepsAndSwaps : Obligations.DrawUStepsAndSwaps := by
  intro x s
  refine ⟨decode_firstDigit_append .u .draw x, exec_drawU_of_unseeded, fun h => ?_⟩
  rw [exec_drawU_of_seeded h, bitField_lowest]
  rfl

/-- Settles O16: the digit is REFILL.U's, and its meaning is the response alone. -/
theorem refillUChangesNothing : Obligations.RefillUChangesNothing := by
  intro x s
  exact ⟨decode_firstDigit_append .u .refill x, exec_refillU s⟩

end Sys2Proof.Machine
end

section
/-! PROOF. The three commands of unit B, the Buffered Generator (42_buffered.md R151 to R154): what a refill does to the
unit, and what each command answers on an unseeded and on a seeded unit. -/

namespace Sys2Proof.Machine

/-! ## The zero seed -/

theorem streamPair_zero_seed (n : Nat) : streamPair 0 0 n = (0, 0) := by
  induction n with
  | zero => rfl
  | succ n ih => rw [streamPair_succ, ih, recStep_zero]

theorem streamOut_zero_seed (n : Nat) : streamOut 0 0 n = 0 := by
  rw [streamOut, streamPair_zero_seed, recStep_zero]

theorem streamBlock_zero_seed (start n : Nat) : streamBlock 0 0 start n = List.replicate n 0 := by
  simp only [streamBlock, streamOut_zero_seed, List.map_const', List.length_range]

/-! ## Refill_B -/

/-- A refill reads neither the old words of the buffer nor the cursor (42_buffered.md R152). -/
theorem UnitB.refill_congr (b : UnitB) {k : BlockSize} (h : b.blk.length = k.words) {blk : List Word}
    (hblk : blk.length = k.words) (cur : Nat) : { b with blk := blk, cur := cur }.refill k = b.refill k := by
  rw [UnitB.refill_eq b k h, UnitB.refill_eq _ k hblk]

theorem UnitB.refill_blk_getElem? (b : UnitB) {k : BlockSize} (h : b.blk.length = k.words) {j : Nat}
    (hj : j < k.words) : (b.refill k).blk[j]? = some (streamOut b.s0 b.s1 j) := by
  rw [UnitB.refill_eq b k h, streamBlock_getElem?, if_pos hj, Nat.zero_add]

theorem State.refillB_eq {s : State} (h : s.b.blk.length = s.cfg.blockB.words) :
    s.refillB = { s with
      b := ⟨(streamPair s.b.s0 s.b.s1 s.cfg.blockB.words).1, (streamPair s.b.s0 s.b.s1 s.cfg.blockB.words).2,
        streamBlock s.b.s0 s.b.s1 0 s.cfg.blockB.words, 0, s.b.seeded⟩
      refillsB := s.refillsB + 1 } := by
  rw [State.refillB, UnitB.refill_eq _ _ h]

/-- Settles O19: `p` and `q` are the pairs at the even places of the stream of the old state words, and an iteration
passes through the odd place between two of them. -/
theorem refillBRunsPairedSteps : Obligations.RefillBRunsPairedSteps := by
  intro b k hlen
  have hwords : 2 * (k.words / 2) = k.words := by have := k.words_even; omega
  refine ⟨⟨fun i => (streamPair b.s0 b.s1 (2 * i)).1, fun i => (streamPair b.s0 b.s1 (2 * i)).2, rfl, rfl,
    fun i hi => ⟨rfl, UnitB.refill_blk_getElem? b hlen (by omega), rfl, UnitB.refill_blk_getElem? b hlen (by omega)⟩,
    ?_, ?_⟩, rfl, UnitB.refill_seeded b k, (UnitB.refill_blk_length b k).trans hlen,
    fun blk cur hblk => UnitB.refill_congr b hlen hblk cur, ?_⟩
  · simp only [UnitB.refill_eq b k hlen, hwords]
  · simp only [UnitB.refill_eq b k hlen, hwords]
  · rw [UnitB.refill_eq b k hlen]

/-! ## SEED.B -/

/-- The state that SEED.B leaves of a state whose unit B is unseeded (42_buffered.md R151). -/
def State.seedB (s : State) (a b : Word) : State :=
  { s with
    b := ⟨(streamPair a b s.cfg.blockB.words).1, (streamPair a b s.cfg.blockB.words).2,
      streamBlock a b 0 s.cfg.blockB.words, 0, true⟩
    refillsB := s.refillsB + 1
    rsps := s.rsps ++ [.void] }

theorem exec_seedB_of_unseeded {s : State} (hlen : s.b.blk.length = s.cfg.blockB.words) (h : s.b.seeded = false)
    (a b : Word) : exec (.seedB a b) s = .next (s.seedB a b) := by
  have hstored : (s.storedB a b).b.blk.length = (s.storedB a b).cfg.blockB.words := hlen
  refine execSeedB_eq_next.mpr ⟨by simp [h], ?_⟩
  rw [State.refillB_eq hstored]
  rfl

theorem exec_seedB_of_seeded {s : State} (h : s.b.seeded = true) (hp : s.cfg.reseed = .fault) (a b : Word) :
    exec (.seedB a b) s = .fault (.reseed .b) :=
  whenSeedAllowed_of_seeded (x := .b) h hp _

/-- Settles O18: the digit is SEED.B's, the flag decides between the refill from the stored pair and the fault, and the
zero pair is a fixed point of the stream. -/
theorem seedBStoresThePairAndRefills : Obligations.SeedBStoresThePairAndRefills := by
  refine ⟨fun a b s hlen => ⟨decode_firstDigit_operands .b .seed a b, fun h => exec_seedB_of_unseeded hlen h a b,
    fun h hp => exec_seedB_of_seeded h hp a b⟩, fun r n => streamBlock_zero_seed (r * n) n, ?_, ?_⟩
  · decide
  · decide

/-! ## DRAW.B -/

theorem exec_drawB_of_unseeded {s : State} (h : s.b.seeded = false) : exec .drawB s = .fault (.unseeded .b) :=
  whenSeeded_of_false (x := .b) h _

theorem exec_drawB_of_seeded {s : State} (h : s.b.seeded = true) : exec .drawB s = s.refillWhenExhaustedB.takeItemB :=
  whenSeeded_of_true (x := .b) h _

/-- A draw that is served from the buffer (42_buffered.md R153). -/
theorem exec_drawB_of_lt {s : State} (hlen : s.b.blk.length = s.cfg.blockB.words) (h : s.b.seeded = true)
    (hc : s.b.cur < s.cfg.itemsB) :
    ∃ y, s.b.blk[s.b.cur / s.cfg.wB.perWord]? = some y ∧ exec .drawB s = .next { s with
      b := { s.b with cur := s.b.cur + 1 }
      rsps := s.rsps ++ [.data (bitField y s.cfg.wB (s.b.cur % s.cfg.wB.perWord))] } := by
  rw [exec_drawB_of_seeded h, State.refillWhenExhaustedB_of_ne hc.ne]
  exact s.takeItemB_eq hlen hc

/-- A draw that finds the buffer exhausted: a refill, then element 0 of the new block (42_buffered.md R153). -/
theorem exec_drawB_of_exhausted {s : State} (hlen : s.b.blk.length = s.cfg.blockB.words) (h : s.b.seeded = true)
    (hc : s.b.cur = s.cfg.itemsB) :
    exec .drawB s = .next { s with
      b := { s.b.refill s.cfg.blockB with cur := 1 }
      refillsB := s.refillsB + 1
      rsps := s.rsps ++ [.data (bitField (streamOut s.b.s0 s.b.s1 0) s.cfg.wB 0)] } := by
  have hx : s.refillB.b.blk[s.refillB.b.cur / s.refillB.cfg.wB.perWord]? = some (streamOut s.b.s0 s.b.s1 0) := by
    rw [State.refillB_b, UnitB.refill_cur, Nat.zero_div]
    exact UnitB.refill_blk_getElem? s.b hlen s.cfg.blockB.words_pos
  rw [exec_drawB_of_seeded h, State.refillWhenExhaustedB_of_eq hc, State.takeItemB_of_some hx, State.refillB_b,
    UnitB.refill_cur, Nat.zero_mod]
  rfl

/-- Settles O20: the digit is DRAW.B's, the flag decides whether there is a fault, and the cursor whether there is a
refill. -/
theorem drawBAnswersTheItemAtTheCursor : Obligations.DrawBAnswersTheItemAtTheCursor := by
  rintro x s ⟨hlen, -⟩
  refine ⟨decode_firstDigit_append .b .draw x, exec_drawB_of_unseeded, exec_drawB_of_lt hlen, fun h hc => ?_⟩
  rw [exec_drawB_of_exhausted hlen h hc, UnitB.refill_eq _ _ hlen, h]

/-! ## REFILL.B -/

theorem exec_refillB_of_unseeded {s : State} (h : s.b.seeded = false) : exec .refillB s = .fault (.unseeded .b) :=
  whenSeeded_of_false (x := .b) h _

theorem exec_refillB_of_seeded {s : State} (h : s.b.seeded = true) : exec .refillB s = .next (s.refillB.respond .void) :=
  whenSeeded_of_true (x := .b) h _

/-- Settles O21: the digit is REFILL.B's, the refill does not look at the cursor, and the cursor it leaves, 0, is below
the item count. -/
theorem refillBRunsAWholeRefill : Obligations.RefillBRunsAWholeRefill := by
  intro x s hlen
  refine ⟨decode_firstDigit_append .b .refill x, exec_refillB_of_unseeded,
    fun h => ⟨s.refillB.respond .void, exec_refillB_of_seeded h, ?_, ?_⟩⟩
  · rw [State.refillB_eq hlen, h]
    rfl
  · obtain ⟨y, -, hdraw⟩ := exec_drawB_of_lt (s := s.refillB.respond .void) (by simpa using hlen) (by simpa using h)
      s.cfg.itemsB_pos
    exact ⟨_, hdraw, rfl⟩

end Sys2Proof.Machine
end

section
/-! PROOF. Commands taken from the port one after the other: the decoder undoes the encoder, and a run takes the oldest
waiting command first (44_sequencing.md R210). -/

namespace Sys2Proof

theorem mkInstr_unit_op_operands (i : Instr) : mkInstr i.unit i.op i.operands.1 i.operands.2 = i := by
  cases i <;> rfl

theorem decode_encode (i : Instr) : decode (encode i) = .command i := by
  rw [encode, decode_packCmd_code, mkInstr_unit_op_operands]

namespace Machine

theorem run_succ_of_exec {s t : State} {i : Instr} {rest : List CmdWord} (hcmds : s.cmds = encode i :: rest)
    (h : exec i { s with cmds := rest } = .next t) (n : Nat) :
    Host.Core.run core (n + 1) s = Host.Core.run core n t :=
  run_succ_of_next ((step_command hcmds (decode_encode i)).trans h)

theorem run_sends_cons {s t : State} {i : Instr} {is : List Instr} (h : exec i (s.sends is) = .next t) (n : Nat) :
    Host.Core.run core (n + 1) (s.sends (i :: is)) = Host.Core.run core n t :=
  run_succ_of_exec (s := s.sends (i :: is)) rfl h n

end Machine

end Sys2Proof
end

section
/-! PROOF. The three commands of unit V, the Vector Generator, as far as the state machine that it shares with unit B
needs them (43_vector.md R184, R186, R187, R192): the faults, and the operations that a command without one runs. -/

namespace Sys2Proof.Machine

theorem exec_seedV_of_seeded {s : State} (h : s.v.seeded = true) (hp : s.cfg.reseed = .fault) (a b : Word) :
    exec (.seedV a b) s = .fault (.reseed .v) :=
  whenSeedAllowed_of_seeded (x := .v) h hp _

theorem exec_seedV_of_unseeded {s : State} (h : s.v.seeded = false) (a b : Word) :
    exec (.seedV a b) s =
      .next (((s.storedV a b).refillV.putV { (s.storedV a b).refillV.v with seeded := true }).respond .void) :=
  whenSeedAllowed_of_false (x := .v) h _

theorem exec_drawV_of_unseeded {s : State} (h : s.v.seeded = false) : exec .drawV s = .fault (.unseeded .v) :=
  whenSeeded_of_false (x := .v) h _

theorem exec_drawV_of_seeded {s : State} (h : s.v.seeded = true) : exec .drawV s = s.refillWhenExhaustedV.takeItemV :=
  whenSeeded_of_true (x := .v) h _

theorem exec_drawV_of_lt {s : State} (h : s.v.seeded = true) (hc : s.v.cur < s.cfg.itemsV) :
    exec .drawV s = s.takeItemV := by
  rw [exec_drawV_of_seeded h, State.refillWhenExhaustedV_of_ne hc.ne]

theorem exec_drawV_of_exhausted {s : State} (h : s.v.seeded = true) (hc : s.v.cur = s.cfg.itemsV) :
    exec .drawV s = s.refillV.takeItemV := by
  rw [exec_drawV_of_seeded h, State.refillWhenExhaustedV_of_eq hc]

theorem exec_refillV_of_unseeded {s : State} (h : s.v.seeded = false) : exec .refillV s = .fault (.unseeded .v) :=
  whenSeeded_of_false (x := .v) h _

theorem exec_refillV_of_seeded {s : State} (h : s.v.seeded = true) : exec .refillV s = .next (s.refillV.respond .void) :=
  whenSeeded_of_true (x := .v) h _

end Sys2Proof.Machine
end

section
/-! PROOF. The state machine that units B and V share (42_buffered.md R159, 43_vector.md R192): the phase by the flag and
the cursor, and what each operation does to a buffered unit's flag, cursor and refill count. -/

namespace Sys2Proof

theorem Config.two_le_itemsB (c : Config) : 2 ≤ c.itemsB :=
  Nat.mul_le_mul c.blockB.two_le_words c.wB.perWord_pos

theorem Config.four_le_itemsV (c : Config) : 4 ≤ c.itemsV :=
  Nat.mul_le_mul (Nat.mul_le_mul c.blockV.two_le_words (le_refl 2)) c.wV.perWord_pos

namespace Machine

/-! ## The phase by the flag and the cursor -/

theorem State.phase_eq_unseeded_iff {s : State} {x : UnitId} : s.phase x = .unseeded ↔ s.seeded x = false := by
  unfold State.phase
  split_ifs <;> simp_all

theorem State.phase_eq_ready_iff {s : State} {x : UnitId} :
    s.phase x = .ready ↔ s.seeded x = true ∧ s.cursor x < s.items x := by
  unfold State.phase
  split_ifs <;> simp_all

theorem State.phase_eq_exhausted_iff {s : State} {x : UnitId} :
    s.phase x = .exhausted ↔ s.seeded x = true ∧ s.items x ≤ s.cursor x := by
  unfold State.phase
  split_ifs <;> simp_all

theorem State.phase_ne_unseeded_iff {s : State} {x : UnitId} : s.phase x ≠ .unseeded ↔ s.seeded x = true := by
  rw [ne_eq, State.phase_eq_unseeded_iff, Bool.not_eq_false]

theorem State.Inv.cursor_le {s : State} (h : s.Inv) (x : UnitId) : s.cursor x ≤ s.items x := by
  obtain ⟨-, -, hb, hv⟩ := h
  cases x with
  | u => exact le_refl 0
  | b => exact hb
  | v => exact hv

theorem State.two_le_items (s : State) {x : UnitId} (hx : x ≠ .u) : 2 ≤ s.items x := by
  cases x with
  | u => exact absurd rfl hx
  | b => exact s.cfg.two_le_itemsB
  | v => exact (by decide : 2 ≤ 4).trans s.cfg.four_le_itemsV

/-! ## The faults -/

theorem exec_seed_of_seeded {s : State} {x : UnitId} (h : s.seeded x = true) (hp : s.cfg.reseed = .fault)
    (a b : Word) : exec (mkInstr x .seed a b) s = .fault (.reseed x) := by
  cases x with
  | u => exact exec_seedU_of_seeded h hp a b
  | b => exact exec_seedB_of_seeded h hp a b
  | v => exact exec_seedV_of_seeded h hp a b

theorem exec_draw_of_unseeded {s : State} {x : UnitId} (h : s.seeded x = false) (a b : Word) :
    exec (mkInstr x .draw a b) s = .fault (.unseeded x) := by
  cases x with
  | u => exact exec_drawU_of_unseeded h
  | b => exact exec_drawB_of_unseeded h
  | v => exact exec_drawV_of_unseeded h

theorem exec_refill_of_unseeded {s : State} {x : UnitId} (hx : x ≠ .u) (h : s.seeded x = false) (a b : Word) :
    exec (mkInstr x .refill a b) s = .fault (.unseeded x) := by
  cases x with
  | u => exact absurd rfl hx
  | b => exact exec_refillB_of_unseeded h
  | v => exact exec_refillV_of_unseeded h

/-! ## The commands that complete -/

/-- The command takes unit `x` of `s` to a seeded unit with the cursor at `c` and `r` refills more. -/
def State.Moves (s : State) (i : Instr) (x : UnitId) (c r : Nat) : Prop :=
  ∃ t, exec i s = .next t ∧ t.seeded x = true ∧ t.items x = s.items x ∧ t.cursor x = c ∧ t.refills x = s.refills x + r

theorem State.Moves.ready {s : State} {i : Instr} {x : UnitId} {c r : Nat} (h : s.Moves i x c r)
    (hc : c < s.items x) :
    ∃ t, exec i s = .next t ∧ t.phase x = .ready ∧ t.cursor x = c ∧ t.refills x = s.refills x + r := by
  obtain ⟨t, ht, hseeded, hitems, hcur, hrefills⟩ := h
  exact ⟨t, ht, State.phase_eq_ready_iff.mpr ⟨hseeded, by rwa [hcur, hitems]⟩, hcur, hrefills⟩

theorem State.Moves.exhausted {s : State} {i : Instr} {x : UnitId} {c r : Nat} (h : s.Moves i x c r)
    (hc : c = s.items x) :
    ∃ t, exec i s = .next t ∧ t.phase x = .exhausted ∧ t.cursor x = s.items x ∧
      t.refills x = s.refills x + r := by
  subst hc
  obtain ⟨t, ht, hseeded, hitems, hcur, hrefills⟩ := h
  exact ⟨t, ht, State.phase_eq_exhausted_iff.mpr ⟨hseeded, by rw [hcur, hitems]⟩, hcur, hrefills⟩

theorem moves_seed {s : State} {x : UnitId} (hx : x ≠ .u) (hinv : s.Inv) (h : s.seeded x = false) (a b : Word) :
    s.Moves (mkInstr x .seed a b) x 0 1 := by
  obtain ⟨hlenB, -⟩ := hinv
  cases x with
  | u => exact absurd rfl hx
  | b => exact ⟨_, exec_seedB_of_unseeded hlenB h a b, rfl, rfl, rfl, rfl⟩
  | v => exact ⟨_, exec_seedV_of_unseeded h a b, rfl, rfl, rfl, rfl⟩

theorem moves_refill {s : State} {x : UnitId} (hx : x ≠ .u) (h : s.seeded x = true) (a b : Word) :
    s.Moves (mkInstr x .refill a b) x 0 1 := by
  cases x with
  | u => exact absurd rfl hx
  | b => exact ⟨_, exec_refillB_of_seeded h, (UnitB.refill_seeded _ _).trans h, rfl, rfl, rfl⟩
  | v => exact ⟨_, exec_refillV_of_seeded h, (UnitV.refill_seeded _ _).trans h, rfl, rfl, rfl⟩

theorem moves_draw_of_lt {s : State} {x : UnitId} (hx : x ≠ .u) (hinv : s.Inv) (h : s.seeded x = true)
    (hc : s.cursor x < s.items x) (a b : Word) : s.Moves (mkInstr x .draw a b) x (s.cursor x + 1) 0 := by
  obtain ⟨hlenB, hlenV, -⟩ := hinv
  cases x with
  | u => exact absurd rfl hx
  | b =>
    obtain ⟨y, -, hdraw⟩ := exec_drawB_of_lt hlenB h hc
    exact ⟨_, hdraw, h, rfl, rfl, rfl⟩
  | v =>
    obtain ⟨y, -, hdraw⟩ := s.takeItemV_eq hlenV hc
    exact ⟨_, (exec_drawV_of_lt h hc).trans hdraw, h, rfl, rfl, rfl⟩

theorem moves_draw_of_exhausted {s : State} {x : UnitId} (hx : x ≠ .u) (hinv : s.Inv) (h : s.seeded x = true)
    (hc : s.cursor x = s.items x) (a b : Word) : s.Moves (mkInstr x .draw a b) x 1 1 := by
  obtain ⟨hlenB, hlenV, -⟩ := hinv
  cases x with
  | u => exact absurd rfl hx
  | b => exact ⟨_, exec_drawB_of_exhausted hlenB h hc, (UnitB.refill_seeded _ _).trans h, rfl, rfl, rfl⟩
  | v =>
    obtain ⟨y, -, hdraw⟩ := s.refillV.takeItemV_eq ((UnitV.refill_blk_length _ _).trans hlenV) s.cfg.itemsV_pos
    exact ⟨_, (exec_drawV_of_exhausted h hc).trans hdraw, (UnitV.refill_seeded _ _).trans h, rfl, rfl, rfl⟩

/-- Settles O43: each row is one of the moves or faults above, and the cursor it leaves tells the phase. -/
theorem bufferedUnitsFollowTheStateMachine : Obligations.BufferedUnitsFollowTheStateMachine := by
  refine ⟨fun s x a b hx hinv => ?_, fun c => ⟨c.two_le_itemsB, c.four_le_itemsV⟩,
    ⟨.w64, .w64, .w64, ⟨0⟩, ⟨0⟩, .fault⟩, rfl, rfl⟩
  have hitems := s.two_le_items hx
  simp only [State.phase_ne_unseeded_iff, State.phase_eq_unseeded_iff (s := s), State.phase_eq_ready_iff (s := s),
    State.phase_eq_exhausted_iff (s := s)]
  refine ⟨fun h => (moves_seed hx hinv h a b).ready (by omega),
    fun h => ⟨exec_draw_of_unseeded h a b, exec_refill_of_unseeded hx h a b⟩,
    fun ⟨h, hlt⟩ hc => (moves_draw_of_lt hx hinv h hlt a b).ready (by omega),
    fun ⟨h, hlt⟩ hc => (moves_draw_of_lt hx hinv h hlt a b).exhausted (by omega),
    fun ⟨h, hle⟩ => (moves_draw_of_exhausted hx hinv h ((hinv.cursor_le x).antisymm hle) a b).ready (by omega),
    fun h => (moves_refill hx h a b).ready (by omega), fun h hp => exec_seed_of_seeded h hp a b⟩

end Machine

end Sys2Proof
end

section
/-! PROOF. The refill of unit B is lazy (42_buffered.md R156): a run of draws, counted by the refills it made and the
cursor it left. -/

namespace Sys2Proof.Machine

/-! ## Refills one after the other -/

theorem UnitB.iterate_refill_blk_length {b : UnitB} {k : BlockSize} (h : b.blk.length = k.words) (r : Nat) :
    ((·.refill k)^[r] b).blk.length = k.words := by
  induction r with
  | zero => exact h
  | succ r ih => rw [Function.iterate_succ_apply', UnitB.refill_blk_length, ih]

theorem UnitB.iterate_refill_seeded (b : UnitB) (k : BlockSize) (r : Nat) :
    ((·.refill k)^[r] b).seeded = b.seeded := by
  induction r with
  | zero => rfl
  | succ r ih => rw [Function.iterate_succ_apply', UnitB.refill_seeded, ih]

/-- After `r` refills the state words stand `r` blocks further on their stream. -/
theorem UnitB.iterate_refill_words {b : UnitB} {k : BlockSize} (h : b.blk.length = k.words) (r : Nat) :
    (((·.refill k)^[r] b).s0, ((·.refill k)^[r] b).s1) = streamPair b.s0 b.s1 (r * k.words) := by
  induction r with
  | zero => rw [Nat.zero_mul]; rfl
  | succ r ih =>
    rw [Function.iterate_succ_apply', UnitB.refill_eq _ _ (UnitB.iterate_refill_blk_length h r), Nat.succ_mul,
      streamPair_add, ← ih]

/-! ## Draws one after the other -/

/-- `t` is `s` after draws of unit B that ran `r` refills and left the cursor at `c`. -/
structure State.DrawnB (s t : State) (r c : Nat) : Prop where
  cfg : t.cfg = s.cfg
  b : t.b = { (·.refill s.cfg.blockB)^[r] s.b with cur := c }
  refillsB : t.refillsB = s.refillsB + r

theorem State.DrawnB.blk_length {s t : State} {r c : Nat} (hd : s.DrawnB t r c)
    (hlen : s.b.blk.length = s.cfg.blockB.words) : t.b.blk.length = t.cfg.blockB.words := by
  rw [hd.b, hd.cfg]
  exact UnitB.iterate_refill_blk_length hlen r

theorem State.DrawnB.seeded {s t : State} {r c : Nat} (hd : s.DrawnB t r c) : t.b.seeded = s.b.seeded := by
  rw [hd.b]
  exact UnitB.iterate_refill_seeded _ _ r

theorem State.DrawnB.words {s t : State} {r c : Nat} (hd : s.DrawnB t r c)
    (hlen : s.b.blk.length = s.cfg.blockB.words) :
    (t.b.s0, t.b.s1) = streamPair s.b.s0 s.b.s1 (r * s.cfg.blockB.words) := by
  rw [hd.b]
  exact UnitB.iterate_refill_words hlen r

/-- `n` draws since the cursor was 0, as refills and a cursor: each refill stands for a whole block of items, and the
draw that ran it has taken an item of the new block. -/
structure DrawCount (items n r c : Nat) : Prop where
  total : r * items + c = n
  cursor_le : c ≤ items
  cursor_pos : 0 < n → 0 < c

theorem DrawCount.zero (items : Nat) : DrawCount items 0 0 0 := ⟨by rw [Nat.zero_mul], Nat.zero_le _, id⟩

theorem DrawCount.succ_of_lt {items n r c : Nat} (h : DrawCount items n r c) (hc : c < items) :
    DrawCount items (n + 1) r (c + 1) :=
  ⟨by rw [← h.total, Nat.add_assoc], hc, fun _ => c.succ_pos⟩

theorem DrawCount.succ_of_exhausted {items n r : Nat} (h : DrawCount items n r items) (hpos : 0 < items) :
    DrawCount items (n + 1) (r + 1) 1 :=
  ⟨by rw [Nat.succ_mul, h.total], hpos, fun _ => one_pos⟩

/-- The last draw, numbered `n - 1` from 0, took the item before the cursor, in the block of the last refill. -/
theorem DrawCount.eq_of_pos {items n r c : Nat} (h : DrawCount items n r c) (hn : 0 < n) :
    r = (n - 1) / items ∧ c = (n - 1) % items + 1 := by
  have hc : 0 < c := h.cursor_pos hn
  have hn1 : n - 1 = (c - 1) + items * r := by rw [← h.total, Nat.mul_comm items]; omega
  have hlt : c - 1 < items := by have := h.cursor_le; omega
  rw [hn1, Nat.add_mul_div_left _ _ (by omega), Nat.add_mul_mod_self_left, Nat.div_eq_of_lt hlt, Nat.mod_eq_of_lt hlt]
  omega

theorem DrawCount.eq_zero {items r c : Nat} (h : DrawCount items 0 r c) (hpos : 0 < items) : r = 0 ∧ c = 0 := by
  obtain ⟨hr, hc⟩ := Nat.add_eq_zero_iff.mp h.total
  exact ⟨(Nat.mul_eq_zero.mp hr).resolve_right hpos.ne', hc⟩

theorem DrawCount.refills_eq {items n r c : Nat} (h : DrawCount items n r c) (hpos : 0 < items) :
    r = (n - 1) / items := by
  obtain rfl | hn := Nat.eq_zero_or_pos n
  · rw [(h.eq_zero hpos).1, Nat.zero_sub, Nat.zero_div]
  · exact (h.eq_of_pos hn).1

theorem DrawCount.cursor_eq {items n r c : Nat} (h : DrawCount items n r c) (hpos : 0 < items) :
    c = if n = 0 then 0 else (n - 1) % items + 1 := by
  split
  · next hn => subst hn; exact (h.eq_zero hpos).2
  · next hn => exact (h.eq_of_pos (Nat.pos_of_ne_zero hn)).2

/-- While the draws fit in one block there is no refill, and the cursor counts the draws. -/
theorem DrawCount.eq_of_le {items n r c : Nat} (h : DrawCount items n r c) (hpos : 0 < items) (hle : n ≤ items) :
    r = 0 ∧ c = n := by
  have hr : r = 0 := by
    rw [h.refills_eq hpos]
    exact Nat.div_eq_of_lt (by omega)
  have htotal := h.total
  rw [hr, Nat.zero_mul, Nat.zero_add] at htotal
  exact ⟨hr, htotal⟩

/-- After whole blocks of draws the cursor is at the item count, and the last block's refill was the last one. -/
theorem DrawCount.eq_of_mod_eq_zero {items n r c : Nat} (h : DrawCount items n r c) (hn : 0 < n)
    (hmod : n % items = 0) : c = items ∧ 1 + r = n / items := by
  have hc : items ∣ c := by
    rw [← Nat.dvd_add_right (Nat.dvd_mul_left items r), h.total]
    exact Nat.dvd_of_mod_eq_zero hmod
  have heq : c = items := Nat.le_antisymm h.cursor_le (Nat.le_of_dvd (h.cursor_pos hn) hc)
  have hpos : 0 < items := heq ▸ h.cursor_pos hn
  refine ⟨heq, ?_⟩
  rw [← h.total, heq, ← Nat.succ_mul, Nat.mul_div_cancel _ hpos, Nat.add_comm]

/-- One more draw: it steps the cursor, or it refills first and leaves the cursor at 1 (42_buffered.md R153). -/
theorem State.DrawnB.exec_drawB {s t : State} {n r c : Nat} (hlen : s.b.blk.length = s.cfg.blockB.words)
    (hseeded : s.b.seeded = true) (hd : s.DrawnB t r c) (hn : DrawCount s.cfg.itemsB n r c) :
    ∃ t' r' c', exec .drawB t = .next t' ∧ t'.cmds = t.cmds ∧ s.DrawnB t' r' c' ∧
      DrawCount s.cfg.itemsB (n + 1) r' c' := by
  have htlen := hd.blk_length hlen
  have htseeded := hd.seeded.trans hseeded
  have hcur : t.b.cur = c := by rw [hd.b]
  obtain hc | hc := hn.cursor_le.lt_or_eq
  · obtain ⟨y, -, hdraw⟩ := exec_drawB_of_lt htlen htseeded (by rwa [hcur, hd.cfg])
    exact ⟨_, r, c + 1, hdraw, rfl, ⟨hd.cfg, by rw [hd.b], hd.refillsB⟩, hn.succ_of_lt hc⟩
  · have hdraw := exec_drawB_of_exhausted htlen htseeded (by rw [hcur, hd.cfg, hc])
    subst hc
    refine ⟨_, r + 1, 1, hdraw, rfl, ⟨hd.cfg, ?_, ?_⟩, hn.succ_of_exhausted s.cfg.itemsB_pos⟩
    · have hiter := UnitB.iterate_refill_blk_length hlen r
      rw [Function.iterate_succ_apply', hd.b, hd.cfg, UnitB.refill_congr _ hiter hiter]
    · rw [hd.refillsB, Nat.add_assoc]

/-- Draws that wait on the port all complete. -/
theorem State.DrawnB.run_draws {s : State} (hlen : s.b.blk.length = s.cfg.blockB.words) (hseeded : s.b.seeded = true)
    (m : Nat) : ∀ {t : State} {n r c : Nat}, s.DrawnB t r c → DrawCount s.cfg.itemsB n r c →
      t.cmds = List.replicate m (encode .drawB) →
      ∃ t' r' c', Host.Core.run core m t = .next t' ∧ s.DrawnB t' r' c' ∧ DrawCount s.cfg.itemsB (n + m) r' c' := by
  induction m with
  | zero => exact fun {t _ r c} hd hn _ => ⟨t, r, c, run_zero t, hd, hn⟩
  | succ m ih =>
    intro t n r c hd hn hcmds
    have hd' : s.DrawnB { t with cmds := List.replicate m (encode .drawB) } r c := ⟨hd.cfg, hd.b, hd.refillsB⟩
    obtain ⟨t₁, r₁, c₁, hdraw, hcmds₁, hd₁, hn₁⟩ := hd'.exec_drawB hlen hseeded hn
    obtain ⟨t', r', c', hrun, hd₂, hn₂⟩ := ih hd₁ hn₁ hcmds₁
    refine ⟨t', r', c', ?_, hd₂, by rwa [Nat.add_right_comm, Nat.add_assoc] at hn₂⟩
    rw [run_succ_of_exec hcmds hdraw, hrun]

/-- From a cursor at 0, draws that wait on the port all complete. -/
theorem run_draws_of_cur_eq_zero {s : State} (hlen : s.b.blk.length = s.cfg.blockB.words) (hseeded : s.b.seeded = true)
    (hcur : s.b.cur = 0) {n : Nat} (hcmds : s.cmds = List.replicate n (encode .drawB)) :
    ∃ t r c, Host.Core.run core n s = .next t ∧ s.DrawnB t r c ∧ DrawCount s.cfg.itemsB n r c := by
  have hstart : s.DrawnB s 0 0 := ⟨rfl, UnitB.ext rfl rfl rfl hcur rfl, rfl⟩
  have hrun := hstart.run_draws hlen hseeded n (DrawCount.zero _) hcmds
  rwa [Nat.zero_add] at hrun

theorem State.sends_cmds_replicate (s : State) (n : Nat) (i : Instr) :
    (s.sends (List.replicate n i)).cmds = List.replicate n (encode i) := List.map_replicate

/-- Settles O22: a run of draws is counted by its refills and the cursor, and a seed is the first refill. -/
theorem refillOfBIsLazy : Obligations.RefillOfBIsLazy := by
  refine ⟨fun s n hlen hseeded hcur => ?_, fun s a b n hlen hunseeded => ?_⟩
  · obtain ⟨t, r, c, hrun, hd, hn⟩ := run_draws_of_cur_eq_zero (s := s.sends (List.replicate n .drawB)) hlen hseeded hcur
      (s.sends_cmds_replicate n .drawB)
    refine ⟨t, hrun, hn.refills_eq s.cfg.itemsB_pos ▸ hd.refillsB, fun hle => ?_⟩
    obtain ⟨rfl, rfl⟩ := hn.eq_of_le s.cfg.itemsB_pos hle
    exact hd.b
  · have hseed := exec_seedB_of_unseeded (s := s.sends (List.replicate n .drawB)) hlen hunseeded a b
    obtain ⟨t, r, c, hrun, hd, hn⟩ := run_draws_of_cur_eq_zero
      (s := (s.sends (List.replicate n .drawB)).seedB a b) (streamBlock_length a b 0 _) rfl rfl
      (s.sends_cmds_replicate n .drawB)
    have hrefills : t.refillsB = s.refillsB + (1 + r) := by rw [hd.refillsB, ← Nat.add_assoc]; rfl
    have hcur : t.b.cur = c := by rw [hd.b]
    refine ⟨t, (run_sends_cons hseed n).trans hrun, ?_, ?_, ?_, fun hpos hmod => ?_⟩
    · rw [hrefills, hn.refills_eq s.cfg.itemsB_pos]
      split
      · next h0 => rw [h0, Nat.zero_sub, Nat.zero_div]
      · rfl
    · rw [hcur]
      exact hn.cursor_eq s.cfg.itemsB_pos
    · rw [hrefills, Nat.add_sub_cancel_left, Nat.add_mul, Nat.one_mul, streamPair_add]
      exact hd.words (streamBlock_length a b 0 _)
    · obtain ⟨hc, hr⟩ := hn.eq_of_mod_eq_zero hpos hmod
      refine ⟨State.phase_eq_exhausted_iff.mpr ⟨hd.seeded, ?_⟩, by rw [hrefills, hr]; rfl⟩
      have hitems : t.items .b = c := (congrArg Config.itemsB hd.cfg).trans hc.symm
      exact (hitems.trans hcur.symm).le

end Sys2Proof.Machine
end

section
/-! PROOF. The three commands of unit V, the Vector Generator (43_vector.md R182 to R187): the wide step in each lane,
what a refill does to the unit, and what each command answers. -/

namespace Sys2Proof.Machine

/-! ## The wide step -/

theorem recStep_laneOf (M O : Wide) (l : Nat) :
    recStep (laneOf M l) (laneOf O l) = (laneOf (wideStep M O).1 l, laneOf (wideStep M O).2 l) := by
  unfold laneOf
  split_ifs <;> rfl

/-- Settles O27: a lane of the result is the step of that lane, so operands that agree in the lane agree in it. -/
theorem wideStepActsLaneByLane : Obligations.WideStepActsLaneByLane := by
  intro M O l _
  refine ⟨(recStep_laneOf M O l).symm, fun M' O' hM hO => Prod.mk.inj ?_⟩
  rw [← recStep_laneOf, ← recStep_laneOf, hM, hO]

/-! ## Wide blocks whose lanes agree -/

theorem wideBlock_zero_seed (start n : Nat) : wideBlock 0 0 0 0 start n = List.replicate n ⟨0, 0⟩ := by
  simp only [wideBlock, streamOut_zero_seed, List.map_const', List.length_range]

/-- Two lanes on one stream hold the same words (43_vector.md R190). -/
theorem lane0_eq_lane1_of_mem_wideBlock {a b : Word} {start n : Nat} {x : Wide}
    (hx : x ∈ wideBlock a b a b start n) : x.lane0 = x.lane1 := by
  obtain ⟨k, -, rfl⟩ := List.mem_map.mp hx
  rfl

/-! ## Refill_V -/

/-- The two state words of unit V after `n` wide steps from `(P, Q)`: each lane is at the `n`-th pair of the stream of
its own words (43_vector.md R188). -/
def widePair (P Q : Wide) (n : Nat) : Wide × Wide :=
  (⟨(streamPair P.lane0 Q.lane0 n).1, (streamPair P.lane1 Q.lane1 n).1⟩,
    ⟨(streamPair P.lane0 Q.lane0 n).2, (streamPair P.lane1 Q.lane1 n).2⟩)

theorem widePair_succ (P Q : Wide) (n : Nat) :
    widePair P Q (n + 1) = ((wideStep (widePair P Q n).2 (widePair P Q n).1).1, (widePair P Q n).1) := rfl

theorem UnitV.refill_S0 (v : UnitV) {k : BlockSize} (h : v.blk.length = k.words) :
    (v.refill k).S0 = (widePair v.S0 v.S1 k.words).1 := by
  rw [UnitV.refill_eq v k h, widePair]

theorem UnitV.refill_S1 (v : UnitV) {k : BlockSize} (h : v.blk.length = k.words) :
    (v.refill k).S1 = (widePair v.S0 v.S1 k.words).2 := by
  rw [UnitV.refill_eq v k h, widePair]

/-- Wide word `j` of the refilled buffer is the output of wide step `j`. -/
theorem UnitV.refill_blk_getElem? (v : UnitV) {k : BlockSize} (h : v.blk.length = k.words) {j : Nat}
    (hj : j < k.words) :
    (v.refill k).blk[j]? = some (wideStep (widePair v.S0 v.S1 j).2 (widePair v.S0 v.S1 j).1).2 := by
  rw [UnitV.refill_eq v k h, wideBlock_getElem?, if_pos hj, Nat.zero_add]
  rfl

/-- A refill reads neither the old words of the buffer nor the cursor (43_vector.md R185). -/
theorem UnitV.refill_congr (v : UnitV) {k : BlockSize} (h : v.blk.length = k.words) {blk : List Wide}
    (hblk : blk.length = k.words) (cur : Nat) : { v with blk := blk, cur := cur }.refill k = v.refill k := by
  rw [UnitV.refill_eq v k h, UnitV.refill_eq _ k hblk]

/-- Settles O29: `p` and `q` are the wide pairs at the even places, and an iteration passes through the odd place
between two of them. -/
theorem refillVRunsPairedWideSteps : Obligations.RefillVRunsPairedWideSteps := by
  intro v k hlen
  have hwords : 2 * (k.words / 2) = k.words := by have := k.words_even; omega
  refine ⟨⟨fun i => (widePair v.S0 v.S1 (2 * i)).1, fun i => (widePair v.S0 v.S1 (2 * i)).2, rfl, rfl,
    fun i hi => ⟨?_, UnitV.refill_blk_getElem? v hlen (by omega), ?_, UnitV.refill_blk_getElem? v hlen (by omega)⟩,
    ?_, ?_⟩, rfl, UnitV.refill_seeded v k, (UnitV.refill_blk_length v k).trans hlen,
    fun blk cur hblk => UnitV.refill_congr v hlen hblk cur⟩
  · simp only [Nat.mul_succ, widePair_succ]
  · simp only [Nat.mul_succ, widePair_succ]
  · simp only [UnitV.refill_S0 v hlen, hwords]
  · simp only [UnitV.refill_S1 v hlen, hwords]

theorem State.refillV_eq {s : State} (h : s.v.blk.length = s.cfg.blockV.words) :
    s.refillV = { s with
      v := ⟨⟨(streamPair s.v.S0.lane0 s.v.S1.lane0 s.cfg.blockV.words).1,
          (streamPair s.v.S0.lane1 s.v.S1.lane1 s.cfg.blockV.words).1⟩,
        ⟨(streamPair s.v.S0.lane0 s.v.S1.lane0 s.cfg.blockV.words).2,
          (streamPair s.v.S0.lane1 s.v.S1.lane1 s.cfg.blockV.words).2⟩,
        wideBlock s.v.S0.lane0 s.v.S1.lane0 s.v.S0.lane1 s.v.S1.lane1 0 s.cfg.blockV.words, 0, s.v.seeded⟩
      refillsV := s.refillsV + 1 } := by
  rw [State.refillV, UnitV.refill_eq _ _ h]

/-! ## SEED.V -/

/-- The state that SEED.V leaves of a state whose unit V is unseeded (43_vector.md R184). -/
def State.seedV (s : State) (a b : Word) : State :=
  { s with
    v := ⟨⟨(streamPair a b s.cfg.blockV.words).1, (streamPair b a s.cfg.blockV.words).1⟩,
      ⟨(streamPair a b s.cfg.blockV.words).2, (streamPair b a s.cfg.blockV.words).2⟩,
      wideBlock a b b a 0 s.cfg.blockV.words, 0, true⟩
    refillsV := s.refillsV + 1
    rsps := s.rsps ++ [.void] }

theorem exec_seedV_eq_seedV {s : State} (hlen : s.v.blk.length = s.cfg.blockV.words) (h : s.v.seeded = false)
    (a b : Word) : exec (.seedV a b) s = .next (s.seedV a b) := by
  have hstored : (s.storedV a b).v.blk.length = (s.storedV a b).cfg.blockV.words := hlen
  rw [exec_seedV_of_unseeded h, State.refillV_eq hstored]
  rfl

theorem State.equalLanes_seedV (s : State) (a : Word) : (s.seedV a a).EqualLanes :=
  ⟨rfl, rfl, fun _ => lane0_eq_lane1_of_mem_wideBlock⟩

/-- Settles O28: the digit is SEED.V's, the flag decides between the refill from the two stored pairs and the fault,
and equal words put both lanes on one stream. -/
theorem seedVPacksBothLanesAndRefills : Obligations.SeedVPacksBothLanesAndRefills := by
  refine ⟨fun a b s hlen => ⟨decode_firstDigit_operands .v .seed a b,
      fun h => ⟨s.seedV a b, exec_seedV_eq_seedV hlen h a b, rfl, ?_⟩, fun h hp => exec_seedV_of_seeded h hp a b⟩,
    fun r n => wideBlock_zero_seed (r * n) n, fun a r n x => lane0_eq_lane1_of_mem_wideBlock, ?_, ?_, ?_⟩
  · rintro rfl
    exact s.equalLanes_seedV a
  · decide
  · decide
  · decide

/-! ## DRAW.V -/

/-- A draw that is served from the buffer (43_vector.md R186). -/
theorem exec_drawV_eq_item_of_lt {s : State} (hlen : s.v.blk.length = s.cfg.blockV.words) (h : s.v.seeded = true)
    (hc : s.v.cur < s.cfg.itemsV) :
    ∃ y, s.v.blk[s.v.cur / s.cfg.wV.perWord / 2]? = some y ∧ exec .drawV s = .next { s with
      v := { s.v with cur := s.v.cur + 1 }
      rsps := s.rsps ++ [.data (bitField (laneOf y (s.v.cur / s.cfg.wV.perWord % 2)) s.cfg.wV
        (s.v.cur % s.cfg.wV.perWord))] } := by
  rw [exec_drawV_of_lt h hc]
  exact s.takeItemV_eq hlen hc

/-- A draw that finds the buffer exhausted: a refill of both lanes, then element 0 of the new block, which is lane 0's
(43_vector.md R186). -/
theorem exec_drawV_eq_first_of_exhausted {s : State} (hlen : s.v.blk.length = s.cfg.blockV.words)
    (h : s.v.seeded = true) (hc : s.v.cur = s.cfg.itemsV) :
    exec .drawV s = .next { s with
      v := { s.v.refill s.cfg.blockV with cur := 1 }
      refillsV := s.refillsV + 1
      rsps := s.rsps ++ [.data (bitField (streamOut s.v.S0.lane0 s.v.S1.lane0 0) s.cfg.wV 0)] } := by
  have hx : s.refillV.v.blk[s.refillV.v.cur / s.refillV.cfg.wV.perWord / 2]? = some (wideStep s.v.S1 s.v.S0).2 := by
    rw [State.refillV_v, UnitV.refill_cur, Nat.zero_div, Nat.zero_div]
    exact UnitV.refill_blk_getElem? s.v hlen s.cfg.blockV.words_pos
  rw [exec_drawV_of_exhausted h hc, State.takeItemV_of_some hx, State.refillV_v, UnitV.refill_cur, Nat.zero_div,
    Nat.zero_mod, Nat.zero_mod]
  rfl

/-- Settles O30: the digit is DRAW.V's, the flag decides whether there is a fault, and the cursor whether there is a
refill. -/
theorem drawVAnswersTheItemAtTheCursor : Obligations.DrawVAnswersTheItemAtTheCursor := by
  rintro x s ⟨-, hlen, -⟩
  refine ⟨decode_firstDigit_append .v .draw x, exec_drawV_of_unseeded, exec_drawV_eq_item_of_lt hlen, fun h hc => ?_⟩
  rw [exec_drawV_eq_first_of_exhausted hlen h hc, UnitV.refill_eq _ _ hlen, h]

/-! ## REFILL.V -/

/-- Settles O31: the digit is REFILL.V's, and the refill does not look at the cursor. -/
theorem refillVRunsAWholeRefill : Obligations.RefillVRunsAWholeRefill := by
  intro x s hlen
  refine ⟨decode_firstDigit_append .v .refill x, exec_refillV_of_unseeded, fun h => ?_⟩
  rw [exec_refillV_of_seeded h, State.refillV_eq hlen, h]
  rfl

end Sys2Proof.Machine
end

section
/-! PROOF. Reserved command words (60_exceptions.md R235): the two fields that make a word reserved, and the step that
takes one. -/

namespace Sys2Proof

/-- All the reserved words, and the digit each carries (30_encoding.md R87, R88). -/
theorem decode_eq_reserved_iff {w : CmdWord} {top : BitVec 4} :
    decode w = .reserved top ↔ (cmdOp w = 0b00#2 ∨ cmdUnit w = 0b11#2) ∧ top = cmdTop w := by
  rw [← decodeOp_eq_none, ← decodeUnit_eq_none, decode]
  cases decodeUnit (cmdUnit w) with
  | none => simp [eq_comm]
  | some x => cases decodeOp (cmdOp w) <;> simp [eq_comm]

namespace Machine

/-- Settles O46: the decoder answers the word's first digit as reserved. -/
theorem reservedWordFaults : Obligations.ReservedWordFaults :=
  fun _ _ _ hcmds hfields => step_reserved hcmds (decode_eq_reserved_iff.mpr ⟨hfields, rfl⟩)

end Machine

end Sys2Proof
end

section
/-! PROOF. A SEED that the policy allows (60_exceptions.md R234): the state it leaves, whether the unit was seeded before
or not. -/

namespace Sys2Proof.Machine

/-- The state that an allowed SEED of unit `x` leaves (41_unbuffered.md R131, 42_buffered.md R151, 43_vector.md R184). -/
def State.seed (s : State) (x : UnitId) (a b : Word) : State :=
  match x with
  | .u => (s.putU ⟨a, b, true⟩).respond .void
  | .b => s.seedB a b
  | .v => s.seedV a b

theorem exec_seed_of_allowed {s : State} {x : UnitId} (hinv : s.Inv)
    (h : ¬(s.seeded x = true ∧ s.cfg.reseed = .fault)) (a b : Word) :
    exec (mkInstr x .seed a b) s = .next (s.seed x a b) := by
  obtain ⟨hlenB, hlenV, -⟩ := hinv
  cases x with
  | u => exact execSeedU_eq_next.mpr ⟨h, rfl⟩
  | b =>
    refine execSeedB_eq_next.mpr ⟨h, ?_⟩
    rw [State.refillB_eq (s := s.storedB a b) hlenB]
    rfl
  | v =>
    refine execSeedV_eq_next.mpr ⟨h, ?_⟩
    rw [State.refillV_eq (s := s.storedV a b) hlenV]
    rfl

theorem State.inv_resetWith (c : Config) : (State.resetWith c).Inv :=
  ⟨List.length_replicate, List.length_replicate, Nat.zero_le _, Nat.zero_le _⟩

theorem State.seeded_resetWith (c : Config) (x : UnitId) : (State.resetWith c).seeded x = false := by
  cases x <;> rfl

/-- Settles O55: what a SEED leaves in its unit is a function of the parameters and the pair, so the unit's earlier state
does not matter. -/
theorem secondSeedFollowsThePolicy : Obligations.SecondSeedFollowsThePolicy := by
  intro s x a b hinv hseeded
  refine ⟨fun hp => exec_seed_of_seeded hseeded hp a b, fun hp => ?_⟩
  have hagain : exec (mkInstr x .seed a b) s = .next (s.seed x a b) := exec_seed_of_allowed hinv (by simp [hp]) a b
  have hfresh : exec (mkInstr x .seed a b) (State.resetWith s.cfg) = .next ((State.resetWith s.cfg).seed x a b) :=
    exec_seed_of_allowed (State.inv_resetWith s.cfg) (by simp [State.seeded_resetWith]) a b
  refine ⟨_, _, hagain, hfresh, ?_, ?_, ?_⟩ <;> rintro rfl <;> rfl

end Sys2Proof.Machine
end

section
/-! PROOF. The complete list of faults (60_exceptions.md R232): a command that neither lacks its seed nor reseeds a unit
against the policy completes. -/

namespace Sys2Proof.Machine

/-! ## The two rows of the table that are about commands -/

/-- The commands that read a unit's state (60_exceptions.md R233). -/
def NeedsSeed (i : Instr) : Prop := i = .drawU ∨ i = .drawB ∨ i = .refillB ∨ i = .drawV ∨ i = .refillV

theorem needsSeed_mkInstr_iff (x : UnitId) (o : OpId) (a b : Word) :
    NeedsSeed (mkInstr x o a b) ↔ o = .draw ∨ (o = .refill ∧ x ≠ .u) := by
  cases x <;> cases o <;> simp [NeedsSeed, mkInstr]

/-- The condition of F_UNSEEDED (60_exceptions.md R233). -/
structure State.LacksSeed (s : State) (i : Instr) : Prop where
  needsSeed : NeedsSeed i
  unseeded : s.seeded i.unit = false

/-- The condition of F_RESEED (60_exceptions.md R234). -/
structure State.Reseeds (s : State) (i : Instr) : Prop where
  op : i.op = .seed
  seeded : s.seeded i.unit = true
  policy : s.cfg.reseed = .fault

theorem exists_eq_mkInstr (i : Instr) : ∃ x o a b, i = mkInstr x o a b :=
  ⟨_, _, _, _, (mkInstr_unit_op_operands i).symm⟩

theorem exec_of_lacksSeed {s : State} {i : Instr} (h : s.LacksSeed i) : exec i s = .fault (.unseeded i.unit) := by
  obtain ⟨rfl | rfl | rfl | rfl | rfl, hunseeded⟩ := h
  · exact exec_drawU_of_unseeded hunseeded
  · exact exec_drawB_of_unseeded hunseeded
  · exact exec_refillB_of_unseeded hunseeded
  · exact exec_drawV_of_unseeded hunseeded
  · exact exec_refillV_of_unseeded hunseeded

theorem exec_of_reseeds {s : State} {i : Instr} (h : s.Reseeds i) : exec i s = .fault (.reseed i.unit) := by
  obtain ⟨hop, hseeded, hp⟩ := h
  obtain ⟨x, o, a, b, rfl⟩ := exists_eq_mkInstr i
  rw [op_mkInstr] at hop
  subst hop
  rw [unit_mkInstr] at hseeded ⊢
  exact exec_seed_of_seeded hseeded hp a b

/-! ## The commands that complete -/

/-- Under the invariant an item is there for a seeded unit's draw, after a refill where the buffer is exhausted. -/
theorem exec_draw_completes {s : State} {x : UnitId} (hinv : s.Inv) (h : s.seeded x = true) (a b : Word) :
    ∃ t, exec (mkInstr x .draw a b) s = .next t := by
  by_cases hx : x = .u
  · subst hx
    exact ⟨_, exec_drawU_of_seeded h⟩
  · obtain hlt | heq := (hinv.cursor_le x).lt_or_eq
    · obtain ⟨t, ht, -⟩ := moves_draw_of_lt hx hinv h hlt a b
      exact ⟨t, ht⟩
    · obtain ⟨t, ht, -⟩ := moves_draw_of_exhausted hx hinv h heq a b
      exact ⟨t, ht⟩

theorem exec_refill_completes {s : State} {x : UnitId} (h : x ≠ .u → s.seeded x = true) (a b : Word) :
    ∃ t, exec (mkInstr x .refill a b) s = .next t := by
  by_cases hx : x = .u
  · subst hx
    exact ⟨_, exec_refillU s⟩
  · obtain ⟨t, ht, -⟩ := moves_refill hx (h hx) a b
    exact ⟨t, ht⟩

/-- All that a command can do under the invariant: it is in a row of the table, or it completes. -/
theorem exec_cases {s : State} (hinv : s.Inv) (i : Instr) :
    s.LacksSeed i ∨ s.Reseeds i ∨ ∃ t, exec i s = .next t := by
  rw [or_iff_not_imp_left, or_iff_not_imp_left]
  intro hlacks hreseeds
  obtain ⟨x, o, a, b, rfl⟩ := exists_eq_mkInstr i
  have hneeds : NeedsSeed (mkInstr x o a b) → s.seeded x = true := fun hn => by
    by_contra h
    exact hlacks ⟨hn, by simpa using h⟩
  rw [needsSeed_mkInstr_iff] at hneeds
  cases o with
  | seed =>
    exact ⟨_, exec_seed_of_allowed hinv (fun ⟨h, hp⟩ => hreseeds ⟨op_mkInstr .., by rwa [unit_mkInstr], hp⟩) a b⟩
  | draw => exact exec_draw_completes hinv (hneeds (.inl rfl)) a b
  | refill => exact exec_refill_completes (fun hx => hneeds (.inr ⟨rfl, hx⟩)) a b

/-! ## The faults -/

theorem exec_eq_fault_iff {s : State} (hinv : s.Inv) {i : Instr} {f : Fault} :
    exec i s = .fault f ↔ (s.LacksSeed i ∧ f = .unseeded i.unit) ∨ (s.Reseeds i ∧ f = .reseed i.unit) := by
  constructor
  · intro hf
    obtain h | h | ⟨t, ht⟩ := exec_cases hinv i
    · cases (exec_of_lacksSeed h).symm.trans hf
      exact .inl ⟨h, rfl⟩
    · cases (exec_of_reseeds h).symm.trans hf
      exact .inr ⟨h, rfl⟩
    · cases ht.symm.trans hf
  · rintro (⟨h, rfl⟩ | ⟨h, rfl⟩)
    · exact exec_of_lacksSeed h
    · exact exec_of_reseeds h

theorem exec_ne_refused {s : State} (hinv : s.Inv) (i : Instr) (r : Refusal) : exec i s ≠ .refused r := by
  intro hr
  obtain h | h | ⟨t, ht⟩ := exec_cases hinv i
  · cases (exec_of_lacksSeed h).symm.trans hr
  · cases (exec_of_reseeds h).symm.trans hr
  · cases ht.symm.trans hr

/-- Settles O47: a word is reserved, which is the table's first row, or it is a command, whose faults are the other
two. -/
theorem faultsAreExactlyTheTable : Obligations.FaultsAreExactlyTheTable := by
  intro s w rest hinv hcmds
  cases hd : decode w with
  | reserved top =>
    obtain ⟨hfields, rfl⟩ := decode_eq_reserved_iff.mp hd
    rw [step_reserved hcmds hd]
    refine ⟨fun f => ⟨fun hf => ?_, ?_⟩, nofun⟩
    · cases hf
      exact .inl ⟨hfields, rfl⟩
    · rintro (⟨-, rfl⟩ | ⟨i, hi, -⟩ | ⟨i, hi, -⟩)
      · rfl
      · cases hi
      · cases hi
  | command i =>
    have hinv' : { s with cmds := rest }.Inv := hinv
    rw [step_command hcmds hd]
    refine ⟨fun f => (exec_eq_fault_iff hinv').trans ⟨?_, ?_⟩, exec_ne_refused hinv' i⟩
    · rintro (⟨⟨hneeds, hunseeded⟩, hf⟩ | ⟨⟨hop, hseeded, hp⟩, hf⟩)
      · exact .inr (.inl ⟨i, rfl, hneeds, hunseeded, hf⟩)
      · exact .inr (.inr ⟨i, rfl, hop, hseeded, hp, hf⟩)
    · rintro (⟨hfields, -⟩ | ⟨j, hj, hneeds, hunseeded, hf⟩ | ⟨j, hj, hop, hseeded, hp, hf⟩)
      · cases (decode_eq_reserved_iff.mpr ⟨hfields, rfl⟩).symm.trans hd
      · cases hj
        exact .inl ⟨⟨hneeds, hunseeded⟩, hf⟩
      · cases hj
        exact .inr ⟨⟨hop, hseeded, hp⟩, hf⟩

end Sys2Proof.Machine
end

section
/-! PROOF. The encoder against the decoder, over all words and all commands (30_encoding.md sections 2 to 5 and 8). -/

namespace Sys2Proof

/-- Settles O2: the decoder answers reserved where one of its two field decoders has no value. -/
theorem reservedExactlyByUnitAndOp : Obligations.ReservedExactlyByUnitAndOp :=
  fun _ _ => decode_eq_reserved_iff.trans and_comm

/-- Settles O3: the decoder reads back the fields that the encoder packs. -/
theorem decodeUndoesEncode : Obligations.DecodeUndoesEncode := fun i _ => decode_encode i

/-- A SEED takes its operand words from the word's two operand fields (30_encoding.md R84). -/
theorem operands_of_decode {w : CmdWord} {i : Instr} (h : decode w = .command i) (hop : i.op = .seed) :
    i.operands = (cmdA w, cmdB w) := by
  obtain ⟨x, o, -, hd⟩ | hd := decode_cases w
  · cases hd.symm.trans h
    rw [op_mkInstr] at hop
    subst hop
    cases x <;> rfl
  · cases hd.symm.trans h

theorem encode_of_decode_seed {w : CmdWord} {i : Instr} (h : decode w = .command i) (hop : i.op = .seed) :
    encode i = w := by
  calc encode i = firstDigit i.unit i.op ++ i.operands.1 ++ i.operands.2 := rfl
    _ = cmdUnit w ++ cmdOp w ++ cmdA w ++ cmdB w := by
      rw [← cmdTop_of_decode h, operands_of_decode h hop, cmdTop_eq_unit_append_op]
    _ = w := packCmd_fields w

/-- Settles O4: a SEED's word is its digit and operands, the other commands' canonical word has the word's digit. -/
theorem encodeGivesTheCanonicalWord : Obligations.EncodeGivesTheCanonicalWord := by
  refine fun w i h => ⟨encode_of_decode_seed h, fun hop => ?_⟩
  rw [encode_of_op_ne_seed hop, ← cmdTop_of_decode h]
  rfl

/-- Settles O6: the decoder is run on the eleven words. -/
theorem writtenOutWordsDecode : Obligations.WrittenOutWordsDecode := by
  unfold Obligations.WrittenOutWordsDecode
  decide

end Sys2Proof
end

section
/-! PROOF. The recurrence step as a map on words (40_recurrence.md sections 1 and 4): bit by bit, as a bijection in the
mutated word, and on nonzero states. -/

namespace Sys2Proof.Machine

/-! ## Words mixed with a shift of themselves -/

theorem xor_self_shiftLeft_getLsbD (m : Word) (k : Nat) {i : Nat} (hi : i < 64) :
    (m ^^^ (m <<< k)).getLsbD i = (m.getLsbD i ^^ (decide (k ≤ i) && m.getLsbD (i - k))) := by
  rw [BitVec.getLsbD_xor, BitVec.getLsbD_shiftLeft, decide_eq_true hi, Bool.true_and, ← decide_not]
  simp only [Nat.not_lt]

/-- Mixing with a left shift is undone from the lowest bit up. -/
theorem xor_self_shiftLeft_injective {k : Nat} (hk : 0 < k) : Function.Injective fun m : Word => m ^^^ (m <<< k) := by
  intro m n hmn
  have hbit (i : Nat) : i < 64 → m.getLsbD i = n.getLsbD i := by
    induction i using Nat.strong_induction_on with
    | _ i ih =>
      intro hi
      have hmix := congrArg (·.getLsbD i) hmn
      simp only [xor_self_shiftLeft_getLsbD _ _ hi] at hmix
      by_cases hki : k ≤ i
      · rw [ih (i - k) (by omega) (by omega)] at hmix
        exact Bool.xor_left_inj.mp hmix
      · simpa [hki] using hmix
  exact BitVec.eq_of_getLsbD_eq hbit

/-- Mixing with a right shift is undone from the highest bit down. -/
theorem xor_self_ushiftRight_injective {k : Nat} (hk : 0 < k) : Function.Injective fun m : Word => m ^^^ (m >>> k) := by
  intro m n hmn
  have hbit (d : Nat) : ∀ i, 64 ≤ i + d → m.getLsbD i = n.getLsbD i := by
    induction d with
    | zero =>
      intro i hi
      rw [BitVec.getLsbD_of_ge m i hi, BitVec.getLsbD_of_ge n i hi]
    | succ d ih =>
      intro i hi
      have hmix := congrArg (·.getLsbD i) hmn
      simp only [BitVec.getLsbD_xor, BitVec.getLsbD_ushiftRight] at hmix
      rw [ih (k + i) (by omega)] at hmix
      exact Bool.xor_left_inj.mp hmix
  exact BitVec.eq_of_getLsbD_eq fun i _ => hbit 64 i (by omega)

/-! ## The obligations on the step itself -/

/-- Settles O10: the two shifts of R110 read bits 23 below and 17 or 26 above. -/
theorem recurrenceBitByBit : Obligations.RecurrenceBitByBit := by
  refine fun m o => ⟨m ^^^ (m <<< 23), fun i hi => xor_self_shiftLeft_getLsbD m 23 hi, fun i _ => ?_, recStep_snd m o⟩
  simp only [recStep, BitVec.getLsbD_xor, BitVec.getLsbD_ushiftRight, Nat.add_comm i]

/-- The new value of the mutated word splits into a mix of the old one and a mix of the other word. -/
theorem recStep_fst_eq (m o : Word) :
    (recStep m o).1 = (m ^^^ (m <<< 23)) ^^^ ((m ^^^ (m <<< 23)) >>> 17) ^^^ (o ^^^ (o >>> 26)) := by
  change (m ^^^ (m <<< 23)) ^^^ o ^^^ ((m ^^^ (m <<< 23)) >>> 17) ^^^ (o >>> 26) = _
  generalize m ^^^ (m <<< 23) = t
  rw [BitVec.xor_assoc t o, BitVec.xor_comm o, ← BitVec.xor_assoc, BitVec.xor_assoc _ o]

theorem recStep_fst_injective (o : Word) : Function.Injective fun m => (recStep m o).1 := by
  intro m n hmn
  simp only [recStep_fst_eq, BitVec.xor_left_inj] at hmn
  exact xor_self_shiftLeft_injective (by decide) (xor_self_ushiftRight_injective (by decide) hmn)

/-- Settles O11: an injective map of a finite type to itself is a bijection. -/
theorem mutatedWordMapIsABijection : Obligations.MutatedWordMapIsABijection :=
  fun o => Finite.injective_iff_bijective.mp (recStep_fst_injective o)

/-! ## Nonzero states -/

/-- Only the zero state steps to the zero state (40_recurrence.md R120). -/
theorem streamPair_ne_zero {a b : Word} (h : (a, b) ≠ (0, 0)) (n : Nat) : streamPair a b n ≠ (0, 0) := by
  induction n with
  | zero => exact h
  | succ n ih =>
    intro hzero
    obtain ⟨hmutated, hother⟩ := Prod.mk.inj hzero
    rw [hother] at hmutated
    have hsnd : (streamPair a b n).2 = 0 :=
      recStep_fst_injective 0 (hmutated.trans (congrArg Prod.fst recStep_zero).symm)
    exact ih (Prod.ext hother hsnd)

/-- Settles O13: the zero pair is a fixed point of the recurrence, with output 0. -/
theorem zeroSeedGivesZeroForEver : Obligations.ZeroSeedGivesZeroForEver :=
  ⟨fun k => ⟨streamPair_zero_seed k, streamOut_zero_seed k⟩, fun _ => exec_drawU_of_zero⟩

end Sys2Proof.Machine
end

section
/-! PROOF. A command runs on its unit alone (10_state.md section 1): a state as one unit put into another state, and
each command on such a state. The frame of a command, what it shares with other units, and the order of two commands
all follow from this. -/

namespace Sys2Proof.Machine

/-! ## One unit's part of a state -/

/-- The engine with unit `x` and the parameters of `s` and nothing else: the other units as after reset, no refill
counted, no word waiting and no response given. -/
def State.isolate (s : State) (x : UnitId) : State :=
  match x with
  | .u => { State.resetWith s.cfg with u := s.u }
  | .b => { State.resetWith s.cfg with b := s.b }
  | .v => { State.resetWith s.cfg with v := s.v }

/-- `s` with unit `x` of `p` in place of its own, the refills counted in `p` added to its own and the responses of `p`
given after its own. -/
def State.graft (s : State) (x : UnitId) (p : State) : State :=
  match x with
  | .u => { s with u := p.u, rsps := s.rsps ++ p.rsps }
  | .b => { s with b := p.b, refillsB := s.refillsB + p.refillsB, rsps := s.rsps ++ p.rsps }
  | .v => { s with v := p.v, refillsV := s.refillsV + p.refillsV, rsps := s.rsps ++ p.rsps }

theorem State.graft_isolate (s : State) (x : UnitId) : s.graft x (s.isolate x) = s := by
  cases x <;> simp [State.graft, State.isolate, State.resetWith]

@[simp] theorem State.isolate_cfg (s : State) (x : UnitId) : (s.isolate x).cfg = s.cfg := by cases x <;> rfl
@[simp] theorem State.isolate_rsps (s : State) (x : UnitId) : (s.isolate x).rsps = [] := by cases x <;> rfl
@[simp] theorem State.graft_cfg (s p : State) (x : UnitId) : (s.graft x p).cfg = s.cfg := by cases x <;> rfl
@[simp] theorem State.graft_cmds (s p : State) (x : UnitId) : (s.graft x p).cmds = s.cmds := by cases x <;> rfl
@[simp] theorem State.graft_rsps (s p : State) (x : UnitId) : (s.graft x p).rsps = s.rsps ++ p.rsps := by
  cases x <;> rfl

theorem State.graft_u (s p : State) {x : UnitId} (hx : x ≠ .u) : (s.graft x p).u = s.u := by
  cases x with
  | u => exact absurd rfl hx
  | b | v => rfl

theorem State.graft_b (s p : State) {x : UnitId} (hx : x ≠ .b) :
    (s.graft x p).b = s.b ∧ (s.graft x p).refillsB = s.refillsB := by
  cases x with
  | b => exact absurd rfl hx
  | u | v => exact ⟨rfl, rfl⟩

theorem State.graft_v (s p : State) {x : UnitId} (hx : x ≠ .v) :
    (s.graft x p).v = s.v ∧ (s.graft x p).refillsV = s.refillsV := by
  cases x with
  | v => exact absurd rfl hx
  | u | b => exact ⟨rfl, rfl⟩

theorem State.isolate_graft (s p : State) {x y : UnitId} (h : x ≠ y) : (s.graft x p).isolate y = s.isolate y := by
  cases y with
  | u => rw [State.isolate, State.graft_u s p h, State.graft_cfg]; rfl
  | b => rw [State.isolate, (State.graft_b s p h).1, State.graft_cfg]; rfl
  | v => rw [State.isolate, (State.graft_v s p h).1, State.graft_cfg]; rfl

/-- Two units are put in place in either order, and the responses alone tell which was first. -/
theorem State.graft_comm (s p q : State) {x y : UnitId} (h : x ≠ y) (rsps : List Response) :
    { (s.graft x p).graft y q with rsps := rsps } = { (s.graft y q).graft x p with rsps := rsps } := by
  cases x with
  | u => cases y with
    | u => exact absurd rfl h
    | b | v => rfl
  | b => cases y with
    | b => exact absurd rfl h
    | u | v => rfl
  | v => cases y with
    | v => exact absurd rfl h
    | u | b => rfl

/-! ## Commands on a state with a unit put into it -/

/-- The result with its next state changed. -/
def onNext (f : State → State) : Result → Result
  | .next t => .next (f t)
  | .fault e => .fault e
  | .refused r => .refused r

theorem onNext_eq_next {f : State → State} {r : Result} {t : State} :
    onNext f r = .next t ↔ ∃ p, r = .next p ∧ f p = t := by
  cases r <;> simp [onNext]

theorem onNext_eq_fault {f : State → State} {r : Result} {e : Fault} : onNext f r = .fault e ↔ r = .fault e := by
  cases r <;> simp [onNext]

theorem State.seeded_graft (s p : State) (x : UnitId) : (s.graft x p).seeded x = p.seeded x := by cases x <;> rfl

theorem State.respond_graft (s p : State) (x : UnitId) (r : Response) :
    (s.graft x p).respond r = s.graft x (p.respond r) := by
  cases x <;> simp [State.graft, State.respond]

theorem next_respond_graft (s p : State) (x : UnitId) (r : Response) :
    (.next ((s.graft x p).respond r) : Result) = onNext (s.graft x) (.next (p.respond r)) := by
  rw [State.respond_graft, onNext]

theorem whenSeeded_graft {s p : State} {x : UnitId} {r r' : Result} (hr : r' = onNext (s.graft x) r) :
    whenSeeded x (s.graft x p) r' = onNext (s.graft x) (whenSeeded x p r) := by
  unfold whenSeeded
  rw [State.seeded_graft, hr]
  split <;> rfl

theorem whenSeedAllowed_graft {s p : State} (hcfg : p.cfg = s.cfg) {x : UnitId} {r r' : Result}
    (hr : r' = onNext (s.graft x) r) :
    whenSeedAllowed x (s.graft x p) r' = onNext (s.graft x) (whenSeedAllowed x p r) := by
  unfold whenSeedAllowed
  rw [State.seeded_graft, State.graft_cfg, hcfg, hr]
  split <;> rfl

theorem State.refillB_graft {s p : State} (hcfg : p.cfg = s.cfg) : (s.graft .b p).refillB = s.graft .b p.refillB := by
  simp [State.refillB, State.graft, hcfg, Nat.add_assoc]

theorem State.refillV_graft {s p : State} (hcfg : p.cfg = s.cfg) : (s.graft .v p).refillV = s.graft .v p.refillV := by
  simp [State.refillV, State.graft, hcfg, Nat.add_assoc]

/-- Unit B with its flag set. -/
def State.markedB (s : State) : State := s.putB { s.b with seeded := true }

/-- Unit V with its flag set. -/
def State.markedV (s : State) : State := s.putV { s.v with seeded := true }

theorem State.takeItemB_of_none {s : State} (hx : s.b.blk[s.b.cur / s.cfg.wB.perWord]? = none) :
    s.takeItemB = .fault (.elementOutsideBuffer .b) := by
  rw [State.takeItemB, memReadB_eq, hx]
  rfl

theorem State.takeItemB_graft {s p : State} (hcfg : p.cfg = s.cfg) :
    (s.graft .b p).takeItemB = onNext (s.graft .b) p.takeItemB := by
  cases hx : p.b.blk[p.b.cur / s.cfg.wB.perWord]? with
  | none =>
    rw [State.takeItemB_of_none (s := s.graft .b p) hx, State.takeItemB_of_none (s := p) (hcfg ▸ hx), onNext]
  | some x =>
    rw [State.takeItemB_of_some (s := s.graft .b p) hx, State.takeItemB_of_some (s := p) (hcfg ▸ hx)]
    simp [onNext, State.graft, hcfg]

theorem State.takeItemV_of_none {s : State} (hx : s.v.blk[s.v.cur / s.cfg.wV.perWord / 2]? = none) :
    s.takeItemV = .fault (.elementOutsideBuffer .v) := by
  rw [State.takeItemV, memReadV_eq, hx]
  rfl

theorem State.takeItemV_graft {s p : State} (hcfg : p.cfg = s.cfg) :
    (s.graft .v p).takeItemV = onNext (s.graft .v) p.takeItemV := by
  cases hx : p.v.blk[p.v.cur / s.cfg.wV.perWord / 2]? with
  | none =>
    rw [State.takeItemV_of_none (s := s.graft .v p) hx, State.takeItemV_of_none (s := p) (hcfg ▸ hx), onNext]
  | some x =>
    rw [State.takeItemV_of_some (s := s.graft .v p) hx, State.takeItemV_of_some (s := p) (hcfg ▸ hx)]
    simp [onNext, State.graft, hcfg]

@[simp] theorem State.refillWhenExhaustedB_cfg (s : State) : s.refillWhenExhaustedB.cfg = s.cfg := by
  unfold State.refillWhenExhaustedB
  split <;> rfl

@[simp] theorem State.refillWhenExhaustedV_cfg (s : State) : s.refillWhenExhaustedV.cfg = s.cfg := by
  unfold State.refillWhenExhaustedV
  split <;> rfl

theorem State.refillWhenExhaustedB_graft {s p : State} (hcfg : p.cfg = s.cfg) :
    (s.graft .b p).refillWhenExhaustedB = s.graft .b p.refillWhenExhaustedB := by
  unfold State.refillWhenExhaustedB
  rw [State.graft_cfg, hcfg, State.refillB_graft hcfg]
  exact (apply_ite _ _ _ _).symm

theorem State.refillWhenExhaustedV_graft {s p : State} (hcfg : p.cfg = s.cfg) :
    (s.graft .v p).refillWhenExhaustedV = s.graft .v p.refillWhenExhaustedV := by
  unfold State.refillWhenExhaustedV
  rw [State.graft_cfg, hcfg, State.refillV_graft hcfg]
  exact (apply_ite _ _ _ _).symm

/-- A command on a state with its unit put into it is the command on that unit's own state. -/
theorem exec_graft {s p : State} (hcfg : p.cfg = s.cfg) (i : Instr) :
    exec i (s.graft i.unit p) = onNext (s.graft i.unit) (exec i p) := by
  cases i with
  | seedU a b => exact whenSeedAllowed_graft hcfg (next_respond_graft s (p.putU ⟨a, b, true⟩) .u .void)
  | drawU =>
    refine whenSeeded_graft (Eq.trans ?_ (next_respond_graft s (p.putU _) .u _))
    rw [hcfg]
    rfl
  | refillU => exact next_respond_graft s p .u .void
  | seedB a b =>
    have hrefill := State.refillB_graft (s := s) (p := p.storedB a b) hcfg
    refine whenSeedAllowed_graft hcfg (Eq.trans ?_ (next_respond_graft s ((p.storedB a b).refillB.markedB) .b .void))
    exact congrArg (fun t => Host.Outcome.next (t.markedB.respond .void)) hrefill
  | drawB =>
    refine whenSeeded_graft (Eq.trans ?_ (State.takeItemB_graft (p.refillWhenExhaustedB_cfg.trans hcfg)))
    exact congrArg State.takeItemB (State.refillWhenExhaustedB_graft hcfg)
  | refillB =>
    refine whenSeeded_graft (Eq.trans ?_ (next_respond_graft s p.refillB .b .void))
    exact congrArg (fun t => Host.Outcome.next (t.respond .void)) (State.refillB_graft hcfg)
  | seedV a b =>
    have hrefill := State.refillV_graft (s := s) (p := p.storedV a b) hcfg
    refine whenSeedAllowed_graft hcfg (Eq.trans ?_ (next_respond_graft s ((p.storedV a b).refillV.markedV) .v .void))
    exact congrArg (fun t => Host.Outcome.next (t.markedV.respond .void)) hrefill
  | drawV =>
    refine whenSeeded_graft (Eq.trans ?_ (State.takeItemV_graft (p.refillWhenExhaustedV_cfg.trans hcfg)))
    exact congrArg State.takeItemV (State.refillWhenExhaustedV_graft hcfg)
  | refillV =>
    refine whenSeeded_graft (Eq.trans ?_ (next_respond_graft s p.refillV .v .void))
    exact congrArg (fun t => Host.Outcome.next (t.respond .void)) (State.refillV_graft hcfg)

/-- A command runs on its unit alone, and what it makes of the unit is put into the state. -/
theorem exec_eq_onNext_isolate (i : Instr) (s : State) :
    exec i s = onNext (s.graft i.unit) (exec i (s.isolate i.unit)) := by
  rw [← exec_graft (s.isolate_cfg i.unit), State.graft_isolate]

theorem exec_eq_next_iff {i : Instr} {s t : State} :
    exec i s = .next t ↔ ∃ p, exec i (s.isolate i.unit) = .next p ∧ s.graft i.unit p = t := by
  rw [exec_eq_onNext_isolate, onNext_eq_next]

theorem exec_eq_fault_isolate_iff {i : Instr} {s : State} {f : Fault} :
    exec i s = .fault f ↔ exec i (s.isolate i.unit) = .fault f := by
  rw [exec_eq_onNext_isolate, onNext_eq_fault]

end Sys2Proof.Machine
end

section
/-! PROOF. What a command that completes gives and leaves alone (30_encoding.md section 7, 10_state.md sections 1 and
9): its response, the frame, the independence of the units, and the order of commands to two units. -/

namespace Sys2Proof

/-- The output width of a unit (00_scope.md R7). -/
def Config.width (c : Config) : UnitId → Width
  | .u => c.wU
  | .b => c.wB
  | .v => c.wV

namespace Machine

/-! ## The response -/

theorem bitField_lt (x : Word) (w : Width) (j : Nat) : (bitField x w j).toNat < 2 ^ w.bits := by
  rw [bitField, BitVec.toNat_ofNat]
  exact (Nat.mod_le _ _).trans_lt (Nat.mod_lt _ (Nat.two_pow_pos _))

@[simp] theorem State.refillWhenExhaustedB_rsps (s : State) : s.refillWhenExhaustedB.rsps = s.rsps := by
  unfold State.refillWhenExhaustedB
  split <;> rfl

@[simp] theorem State.refillWhenExhaustedV_rsps (s : State) : s.refillWhenExhaustedV.rsps = s.rsps := by
  unfold State.refillWhenExhaustedV
  split <;> rfl

/-- A command that is not a DRAW answers no value (30_encoding.md R90). -/
theorem exec_rsps_of_op_ne_draw {s t : State} {i : Instr} (h : exec i s = .next t) (hop : i.op ≠ .draw) :
    t.rsps = s.rsps ++ [.void] := by
  cases i with
  | drawU | drawB | drawV => exact absurd rfl hop
  | seedU a b => obtain ⟨-, rfl⟩ := execSeedU_eq_next.mp h; rfl
  | refillU => obtain rfl := execRefillU_eq_next.mp h; rfl
  | seedB a b => obtain ⟨-, rfl⟩ := execSeedB_eq_next.mp h; rfl
  | refillB => obtain ⟨-, rfl⟩ := execRefillB_eq_next.mp h; rfl
  | seedV a b => obtain ⟨-, rfl⟩ := execSeedV_eq_next.mp h; rfl
  | refillV => obtain ⟨-, rfl⟩ := execRefillV_eq_next.mp h; rfl

/-- A DRAW answers a bit field of its unit's width (30_encoding.md R90). -/
theorem exec_rsps_of_op_eq_draw {s t : State} {i : Instr} (h : exec i s = .next t) (hop : i.op = .draw) :
    ∃ x j, t.rsps = s.rsps ++ [.data (bitField x (s.cfg.width i.unit) j)] := by
  cases i with
  | seedU | refillU | seedB | refillB | seedV | refillV => cases hop
  | drawU =>
    obtain ⟨-, rfl⟩ := execDrawU_eq_next.mp h
    exact ⟨_, _, rfl⟩
  | drawB =>
    obtain ⟨x, -, rfl⟩ := State.takeItemB_eq_next (execDrawB_eq_next.mp h).2
    exact ⟨x, _, by rw [State.refillWhenExhaustedB_rsps, State.refillWhenExhaustedB_cfg]; rfl⟩
  | drawV =>
    obtain ⟨x, -, rfl⟩ := State.takeItemV_eq_next (execDrawV_eq_next.mp h).2
    exact ⟨_, _, by rw [State.refillWhenExhaustedV_rsps, State.refillWhenExhaustedV_cfg]; rfl⟩

theorem exec_rsps {s t : State} {i : Instr} (h : exec i s = .next t) : ∃ r, t.rsps = s.rsps ++ [r] := by
  by_cases hop : i.op = .draw
  · obtain ⟨x, j, hr⟩ := exec_rsps_of_op_eq_draw h hop
    exact ⟨_, hr⟩
  · exact ⟨_, exec_rsps_of_op_ne_draw h hop⟩

theorem exec_cmds {s t : State} {i : Instr} (h : exec i s = .next t) : t.cmds = s.cmds := by
  obtain ⟨p, -, rfl⟩ := exec_eq_next_iff.mp h
  exact s.graft_cmds p i.unit

theorem exec_cfg {s t : State} {i : Instr} (h : exec i s = .next t) : t.cfg = s.cfg := by
  obtain ⟨p, -, rfl⟩ := exec_eq_next_iff.mp h
  exact s.graft_cfg p i.unit

/-- Settles O50: a DRAW answers a bit field of its unit's width, another command no value. -/
theorem everyCommandGivesOneResponse : Obligations.EveryCommandGivesOneResponse := by
  intro s t i h
  by_cases hop : i.op = .draw
  · obtain ⟨x, j, hr⟩ := exec_rsps_of_op_eq_draw h hop
    refine ⟨_, hr, exec_cmds h, absurd hop, fun _ => ⟨_, rfl, ?_⟩⟩
    have hlt := bitField_lt x (s.cfg.width i.unit) j
    revert hlt
    cases i.unit <;> exact id
  · exact ⟨_, exec_rsps_of_op_ne_draw h hop, exec_cmds h, fun _ => rfl, fun hdraw => absurd hdraw hop⟩

/-! ## The frame -/

theorem exec_u {s t : State} {i : Instr} (h : exec i s = .next t) (hi : i.unit ≠ .u) : t.u = s.u := by
  obtain ⟨p, -, rfl⟩ := exec_eq_next_iff.mp h
  exact s.graft_u p hi

theorem exec_b {s t : State} {i : Instr} (h : exec i s = .next t) (hi : i.unit ≠ .b) :
    t.b = s.b ∧ t.refillsB = s.refillsB := by
  obtain ⟨p, -, rfl⟩ := exec_eq_next_iff.mp h
  exact s.graft_b p hi

theorem exec_v {s t : State} {i : Instr} (h : exec i s = .next t) (hi : i.unit ≠ .v) :
    t.v = s.v ∧ t.refillsV = s.refillsV := by
  obtain ⟨p, -, rfl⟩ := exec_eq_next_iff.mp h
  exact s.graft_v p hi

theorem exec_seeded_of_ne {s t : State} {i : Instr} (h : exec i s = .next t) {x : UnitId} (hx : i.unit ≠ x) :
    t.seeded x = s.seeded x := by
  cases x with
  | u => rw [State.seeded_u, State.seeded_u, exec_u h hx]
  | b => rw [State.seeded_b, State.seeded_b, (exec_b h hx).1]
  | v => rw [State.seeded_v, State.seeded_v, (exec_v h hx).1]

/-! ## Independent units -/

/-- Two states whose unit `x` and parameters agree have the same part of that unit. -/
theorem State.isolate_congr {s s' : State} {x : UnitId} (hcfg : s.cfg = s'.cfg) (hu : x = .u → s.u = s'.u)
    (hb : x = .b → s.b = s'.b) (hv : x = .v → s.v = s'.v) : s.isolate x = s'.isolate x := by
  cases x with
  | u => rw [State.isolate, State.isolate, hcfg, hu rfl]
  | b => rw [State.isolate, State.isolate, hcfg, hb rfl]
  | v => rw [State.isolate, State.isolate, hcfg, hv rfl]

/-- Settles O53: both states give the command the same unit to run on, and each gets the same unit back. -/
theorem unitsShareNoState : Obligations.UnitsShareNoState := by
  intro s s' i hcfg hu hb hv
  have hsame := State.isolate_congr hcfg hu hb hv
  refine ⟨fun f hf => ?_, fun t ht => ?_⟩
  · rw [exec_eq_fault_isolate_iff] at hf ⊢
    rwa [← hsame]
  · obtain ⟨p, hp, rfl⟩ := exec_eq_next_iff.mp ht
    obtain ⟨r, hr⟩ := exec_rsps hp
    rw [State.isolate_rsps, List.nil_append] at hr
    refine ⟨s'.graft i.unit p, r, exec_eq_next_iff.mpr ⟨p, hsame ▸ hp, rfl⟩, by rw [State.graft_rsps, hr],
      by rw [State.graft_rsps, hr], ?_, ?_, ?_⟩ <;> intro hx <;> rw [hx] <;> exact ⟨rfl, rfl, rfl, rfl, rfl⟩

/-- Settles O54: each command runs on its own unit's part of the state, which the other command leaves as it is. -/
theorem commandsToDifferentUnitsCommute : Obligations.CommandsToDifferentUnitsCommute := by
  intro s s1 s12 i j hij hi hj
  obtain ⟨p, hp, rfl⟩ := exec_eq_next_iff.mp hi
  obtain ⟨q, hq, rfl⟩ := exec_eq_next_iff.mp hj
  rw [State.isolate_graft s p hij] at hq
  have hfirst : exec j s = .next (s.graft j.unit q) := exec_eq_next_iff.mpr ⟨q, hq, rfl⟩
  have hsecond : exec i (s.graft j.unit q) = .next ((s.graft j.unit q).graft i.unit p) :=
    exec_eq_next_iff.mpr ⟨p, by rwa [State.isolate_graft s q hij.symm], rfl⟩
  obtain ⟨ri, hri⟩ := exec_rsps hp
  obtain ⟨rj, hrj⟩ := exec_rsps hq
  rw [State.isolate_rsps, List.nil_append] at hri hrj
  refine ⟨_, _, ri, rj, hfirst, hsecond, ?_, ?_, (State.graft_comm s p q hij _).symm⟩
  · rw [State.graft_rsps, State.graft_rsps, hri, hrj, List.append_assoc]
    rfl
  · rw [State.graft_rsps, State.graft_rsps, hri, hrj, List.append_assoc]
    rfl

end Machine

end Sys2Proof
end

section
/-! PROOF. What a command makes of a unit. A lane of unit V is a Buffered Generator (43_vector.md R188), so what keeps
the invariants is said once, of a unit B, and read three times: of unit B and of each lane of unit V. -/

namespace Sys2Proof.Machine

/-! ## A Buffered Generator under one command -/

/-- What a command of the given operation, with the seed words `x` and `y`, makes of a Buffered Generator of block size
`k` and the given item count, and the refills it runs (42_buffered.md R151, R153, R154). -/
inductive UnitB.Runs (k : BlockSize) (items : Nat) (p : ReseedPolicy) (x y : Word) (b : UnitB) :
    OpId → UnitB → Nat → Prop
  | seed : ¬(b.seeded = true ∧ p = .fault) →
    UnitB.Runs k items p x y b .seed { { b with s0 := x, s1 := y }.refill k with seeded := true } 1
  | take : b.seeded = true → b.cur ≠ items → UnitB.Runs k items p x y b .draw { b with cur := b.cur + 1 } 0
  | refillAndTake : b.seeded = true → b.cur = items →
    UnitB.Runs k items p x y b .draw { b.refill k with cur := 1 } 1
  | refill : b.seeded = true → UnitB.Runs k items p x y b .refill (b.refill k) 1

section
variable {k : BlockSize} {items : Nat} {p : ReseedPolicy} {x y : Word} {b b' : UnitB} {o : OpId} {n : Nat}

theorem UnitB.Runs.of_eq {b'' : UnitB} (h : b.Runs k items p x y o b' n) (heq : b'' = b') :
    b.Runs k items p x y o b'' n :=
  heq ▸ h

theorem UnitB.Runs.blk_length (h : b.Runs k items p x y o b' n) : b'.blk.length = b.blk.length := by
  cases h with
  | seed => exact UnitB.refill_blk_length _ _
  | take => rfl
  | refillAndTake => exact UnitB.refill_blk_length _ _
  | refill => exact UnitB.refill_blk_length _ _

theorem UnitB.Runs.cur_le (h : b.Runs k items p x y o b' n) (hpos : 0 < items) (hcur : b.cur ≤ items) :
    b'.cur ≤ items := by
  cases h with
  | seed => exact Nat.zero_le _
  | take _ hne => exact Nat.lt_of_le_of_ne hcur hne
  | refillAndTake => exact hpos
  | refill => exact Nat.zero_le _

theorem UnitB.Runs.seeded (h : b.Runs k items p x y o b' n) : b'.seeded = true := by
  cases h with
  | seed => rfl
  | take hseeded => exact hseeded
  | refillAndTake hseeded => exact (UnitB.refill_seeded b k).trans hseeded
  | refill hseeded => exact (UnitB.refill_seeded b k).trans hseeded

theorem UnitB.Runs.seeded_or_seed (h : b.Runs k items p x y o b' n) : b.seeded = true ∨ o = .seed := by
  cases h with
  | seed => exact .inr rfl
  | take hseeded | refillAndTake hseeded | refill hseeded => exact .inl hseeded

/-- The command and the unit determine the outcome. -/
theorem UnitB.Runs.unique {b'' : UnitB} {m : Nat} (h : b.Runs k items p x y o b' n)
    (h' : b.Runs k items p x y o b'' m) : b' = b'' := by
  cases h with
  | seed => cases h'; rfl
  | take _ hne =>
    cases h' with
    | take => rfl
    | refillAndTake _ heq => exact absurd heq hne
  | refillAndTake _ heq =>
    cases h' with
    | take _ hne => exact absurd heq hne
    | refillAndTake => rfl
  | refill => cases h'; rfl

/-! ## Nonzero state words -/

theorem UnitB.refill_words (b : UnitB) (k : BlockSize) :
    ((b.refill k).s0, (b.refill k).s1) = streamPair b.s0 b.s1 k.words := by
  obtain ⟨h0, h1, -⟩ := UnitB.refillLoop_spec k.pairs b 0
  exact Prod.ext h0 h1

theorem UnitB.refill_words_ne_zero {b : UnitB} (h : (b.s0, b.s1) ≠ (0, 0)) (k : BlockSize) :
    ((b.refill k).s0, (b.refill k).s1) ≠ (0, 0) := by
  rw [UnitB.refill_words]
  exact streamPair_ne_zero h _

theorem UnitB.Runs.words_ne_zero (h : b.Runs k items p x y o b' n) (hxy : o = .seed → (x, y) ≠ (0, 0))
    (hb : b.seeded = true → (b.s0, b.s1) ≠ (0, 0)) : (b'.s0, b'.s1) ≠ (0, 0) := by
  cases h with
  | seed => exact UnitB.refill_words_ne_zero (b := { b with s0 := x, s1 := y }) (hxy rfl) k
  | take hseeded => exact hb hseeded
  | refillAndTake hseeded => exact UnitB.refill_words_ne_zero (hb hseeded) k
  | refill hseeded => exact UnitB.refill_words_ne_zero (hb hseeded) k

/-! ## The stream of a seed -/

/-- A Buffered Generator seeded with `(a, c)` that has refilled `r` times since: the buffer is the `r`-th block of the
stream and the state words stand at that block's end (42_buffered.md R155). -/
structure UnitB.OnStream (b : UnitB) (k : BlockSize) (a c : Word) (r : Nat) : Prop where
  seeded : b.seeded = true
  pos : 1 ≤ r
  words : (b.s0, b.s1) = streamPair a c (r * k.words)
  blk : b.blk = streamBlock a c ((r - 1) * k.words) k.words

theorem streamBlock_add (a c : Word) (m start n : Nat) :
    streamBlock a c (m + start) n = streamBlock (streamPair a c m).1 (streamPair a c m).2 start n := by
  simp only [streamBlock, Nat.add_assoc, streamOut_add a c m]

theorem UnitB.OnStream.blk_length {a c : Word} {r : Nat} (h : b.OnStream k a c r) : b.blk.length = k.words := by
  rw [h.blk, streamBlock_length]

/-- A refill moves on by one block. -/
theorem UnitB.OnStream.refill {a c : Word} {r : Nat} (h : b.OnStream k a c r) :
    (b.refill k).OnStream k a c (r + 1) where
  seeded := (UnitB.refill_seeded b k).trans h.seeded
  pos := Nat.succ_pos r
  words := by rw [UnitB.refill_words, Nat.succ_mul, streamPair_add, ← h.words]
  blk := by
    rw [UnitB.refill_eq b k h.blk_length, Nat.add_sub_cancel, ← Nat.add_zero (r * k.words), streamBlock_add, ← h.words]

theorem UnitB.OnStream.setCur {a c : Word} {r : Nat} (h : b.OnStream k a c r) (cur : Nat) :
    { b with cur := cur }.OnStream k a c r := ⟨h.seeded, h.pos, h.words, h.blk⟩

/-- Where no second SEED is allowed a command moves on by the refills it runs. -/
theorem UnitB.Runs.onStream {a c : Word} {r : Nat} (h : b.Runs k items .fault x y o b' n) (hb : b.OnStream k a c r) :
    b'.OnStream k a c (r + n) := by
  cases h with
  | seed hallowed => exact absurd ⟨hb.seeded, rfl⟩ hallowed
  | take => exact hb.setCur _
  | refillAndTake => exact hb.refill.setCur 1
  | refill => exact hb.refill

end

end Sys2Proof.Machine
end

section
/-! PROOF. The commands of units B and V as those of Buffered Generators (42_buffered.md R151 to R154, 43_vector.md
R188), and what every step keeps. -/

namespace Sys2Proof.Machine

/-! ## Units B and V under one command -/

/-- A command on unit B runs it as a Buffered Generator. -/
theorem exec_runsB {s t : State} {i : Instr} (h : exec i s = .next t) (hi : i.unit = .b) :
    ∃ n, t.refillsB = s.refillsB + n ∧
      s.b.Runs s.cfg.blockB s.cfg.itemsB s.cfg.reseed i.operands.1 i.operands.2 i.op t.b n := by
  cases i with
  | seedU | drawU | refillU | seedV | drawV | refillV => cases hi
  | seedB a b =>
    obtain ⟨hallowed, rfl⟩ := execSeedB_eq_next.mp h
    exact ⟨1, rfl, .seed hallowed⟩
  | drawB =>
    obtain ⟨hseeded, htake⟩ := execDrawB_eq_next.mp h
    by_cases hcur : s.b.cur = s.cfg.itemsB
    · rw [State.refillWhenExhaustedB_of_eq hcur] at htake
      obtain ⟨x, -, rfl⟩ := State.takeItemB_eq_next htake
      exact ⟨1, rfl, .refillAndTake hseeded hcur⟩
    · rw [State.refillWhenExhaustedB_of_ne hcur] at htake
      obtain ⟨x, -, rfl⟩ := State.takeItemB_eq_next htake
      exact ⟨0, rfl, .take hseeded hcur⟩
  | refillB =>
    obtain ⟨hseeded, rfl⟩ := execRefillB_eq_next.mp h
    exact ⟨1, rfl, .refill hseeded⟩

/-- A command on unit V runs each lane as a Buffered Generator, lane 1 with the seed words exchanged. -/
theorem exec_runsV {s t : State} {i : Instr} (h : exec i s = .next t) (hi : i.unit = .v) :
    ∃ n, t.refillsV = s.refillsV + n ∧
      s.v.lane0.Runs s.cfg.blockV s.cfg.itemsV s.cfg.reseed i.operands.1 i.operands.2 i.op t.v.lane0 n ∧
      s.v.lane1.Runs s.cfg.blockV s.cfg.itemsV s.cfg.reseed i.operands.2 i.operands.1 i.op t.v.lane1 n := by
  cases i with
  | seedU | drawU | refillU | seedB | drawB | refillB => cases hi
  | seedV a b =>
    obtain ⟨hallowed, rfl⟩ := execSeedV_eq_next.mp h
    have hlane0 := congrArg (fun b : UnitB => { b with seeded := true }) ((s.storedV a b).v.lane0_refill s.cfg.blockV)
    have hlane1 := congrArg (fun b : UnitB => { b with seeded := true }) ((s.storedV a b).v.lane1_refill s.cfg.blockV)
    exact ⟨1, rfl, .of_eq (.seed hallowed) hlane0, .of_eq (.seed hallowed) hlane1⟩
  | drawV =>
    obtain ⟨hseeded, htake⟩ := execDrawV_eq_next.mp h
    by_cases hcur : s.v.cur = s.cfg.itemsV
    · rw [State.refillWhenExhaustedV_of_eq hcur] at htake
      obtain ⟨x, -, rfl⟩ := State.takeItemV_eq_next htake
      have hlane0 := congrArg (fun b : UnitB => { b with cur := 1 }) (s.v.lane0_refill s.cfg.blockV)
      have hlane1 := congrArg (fun b : UnitB => { b with cur := 1 }) (s.v.lane1_refill s.cfg.blockV)
      exact ⟨1, rfl, .of_eq (.refillAndTake hseeded hcur) hlane0, .of_eq (.refillAndTake hseeded hcur) hlane1⟩
    · rw [State.refillWhenExhaustedV_of_ne hcur] at htake
      obtain ⟨x, -, rfl⟩ := State.takeItemV_eq_next htake
      exact ⟨0, rfl, .take hseeded hcur, .take hseeded hcur⟩
  | refillV =>
    obtain ⟨hseeded, rfl⟩ := execRefillV_eq_next.mp h
    exact ⟨1, rfl, .of_eq (.refill hseeded) (s.v.lane0_refill s.cfg.blockV),
      .of_eq (.refill hseeded) (s.v.lane1_refill s.cfg.blockV)⟩

/-- A command leaves unit B and its refill count, or runs it as a Buffered Generator. -/
theorem exec_unitB {s t : State} {i : Instr} (h : exec i s = .next t) :
    (t.b = s.b ∧ t.refillsB = s.refillsB) ∨ i.unit = .b ∧ ∃ n, t.refillsB = s.refillsB + n ∧
      s.b.Runs s.cfg.blockB s.cfg.itemsB s.cfg.reseed i.operands.1 i.operands.2 i.op t.b n :=
  (eq_or_ne i.unit .b).elim (fun hi => .inr ⟨hi, exec_runsB h hi⟩) fun hi => .inl (exec_b h hi)

/-- A command leaves unit V and its refill count, or runs each lane as a Buffered Generator. -/
theorem exec_unitV {s t : State} {i : Instr} (h : exec i s = .next t) :
    (t.v = s.v ∧ t.refillsV = s.refillsV) ∨ i.unit = .v ∧ ∃ n, t.refillsV = s.refillsV + n ∧
      s.v.lane0.Runs s.cfg.blockV s.cfg.itemsV s.cfg.reseed i.operands.1 i.operands.2 i.op t.v.lane0 n ∧
      s.v.lane1.Runs s.cfg.blockV s.cfg.itemsV s.cfg.reseed i.operands.2 i.operands.1 i.op t.v.lane1 n :=
  (eq_or_ne i.unit .v).elim (fun hi => .inr ⟨hi, exec_runsV h hi⟩) fun hi => .inl (exec_v h hi)

/-- A command on unit U seeds it, steps the recurrence on it, or leaves it (41_unbuffered.md R131 to R133). -/
theorem exec_unitU {s t : State} {i : Instr} (h : exec i s = .next t) (hi : i.unit = .u) :
    (i.op = .seed ∧ t.u = ⟨i.operands.1, i.operands.2, true⟩) ∨
      (i.op = .draw ∧ s.u.seeded = true ∧ t.u = ⟨(recStep s.u.s1 s.u.s0).1, s.u.s0, true⟩) ∨
      (i.op = .refill ∧ t.u = s.u) := by
  cases i with
  | seedB | drawB | refillB | seedV | drawV | refillV => cases hi
  | seedU a b =>
    obtain ⟨-, rfl⟩ := execSeedU_eq_next.mp h
    exact .inl ⟨rfl, rfl⟩
  | drawU =>
    obtain ⟨hseeded, rfl⟩ := execDrawU_eq_next.mp h
    exact .inr (.inl ⟨rfl, hseeded, by rw [hseeded]; rfl⟩)
  | refillU =>
    obtain rfl := execRefillU_eq_next.mp h
    exact .inr (.inr ⟨rfl, rfl⟩)

/-! ## Invariants of every step -/

theorem step_cfg {s t : State} (h : step s = .next t) : t.cfg = s.cfg := by
  obtain ⟨-, rfl⟩ | ⟨w, rest, i, -, -, h⟩ := step_eq_next h
  · rfl
  · exact exec_cfg (s := { s with cmds := rest }) h

theorem exec_inv {s t : State} {i : Instr} (h : exec i s = .next t) (hinv : s.Inv) : t.Inv := by
  obtain ⟨hlenB, hlenV, hcurB, hcurV⟩ := hinv
  have hB : t.b.blk.length = s.cfg.blockB.words ∧ t.b.cur ≤ s.cfg.itemsB := by
    obtain ⟨hb, -⟩ | ⟨-, n, -, hruns⟩ := exec_unitB h
    · rw [hb]; exact ⟨hlenB, hcurB⟩
    · exact ⟨hruns.blk_length.trans hlenB, hruns.cur_le s.cfg.itemsB_pos hcurB⟩
  have hV : t.v.blk.length = s.cfg.blockV.words ∧ t.v.cur ≤ s.cfg.itemsV := by
    obtain ⟨hv, -⟩ | ⟨-, n, -, hruns, -⟩ := exec_unitV h
    · rw [hv]; exact ⟨hlenV, hcurV⟩
    · refine ⟨?_, hruns.cur_le s.cfg.itemsV_pos hcurV⟩
      have hlen := hruns.blk_length
      simp only [UnitV.lane0, List.length_map] at hlen
      exact hlen.trans hlenV
  rw [State.Inv, exec_cfg h]
  exact ⟨hB.1, hV.1, hB.2, hV.2⟩

/-- Settles O41: a refill keeps the buffer's size and zeroes the cursor, and an item is taken below the item count. -/
theorem everyStepKeepsTheInvariant : Obligations.EveryStepKeepsTheInvariant := by
  intro s t hinv h
  obtain ⟨-, rfl⟩ | ⟨w, rest, i, -, -, h⟩ := step_eq_next h
  · exact hinv
  · exact exec_inv h hinv

/-! ## The streams of the buffered units -/

theorem State.onStreamB_iff {s : State} {a b : Word} {r : Nat} :
    s.OnStreamB a b r ↔ s.b.OnStream s.cfg.blockB a b r :=
  ⟨fun ⟨hseeded, hpos, hwords, hblk⟩ => ⟨hseeded, hpos, hwords, hblk⟩,
    fun ⟨hseeded, hpos, hwords, hblk⟩ => ⟨hseeded, hpos, hwords, hblk⟩⟩

theorem wideBlock_map_lane0 (a0 b0 a1 b1 : Word) (start n : Nat) :
    (wideBlock a0 b0 a1 b1 start n).map Wide.lane0 = streamBlock a0 b0 start n := by
  rw [wideBlock, streamBlock, List.map_map]
  rfl

theorem wideBlock_map_lane1 (a0 b0 a1 b1 : Word) (start n : Nat) :
    (wideBlock a0 b0 a1 b1 start n).map Wide.lane1 = streamBlock a1 b1 start n := by
  rw [wideBlock, streamBlock, List.map_map]
  rfl

theorem ext_map_lanes {l l' : List Wide} (h0 : l.map Wide.lane0 = l'.map Wide.lane0)
    (h1 : l.map Wide.lane1 = l'.map Wide.lane1) : l = l' := by
  have hzip (l : List Wide) : List.zipWith Wide.mk (l.map Wide.lane0) (l.map Wide.lane1) = l := by
    rw [List.zipWith_map, List.zipWith_self, List.map_id'']
    exact fun _ => rfl
  rw [← hzip l, h0, h1, hzip]

/-- Unit V is on its two streams when each lane is on its own (43_vector.md R188). -/
theorem State.onStreamV_iff {s : State} {a b : Word} {r : Nat} :
    s.OnStreamV a b r ↔ s.v.lane0.OnStream s.cfg.blockV a b r ∧ s.v.lane1.OnStream s.cfg.blockV b a r := by
  constructor
  · rintro ⟨hseeded, hpos, hwords0, hwords1, hblk⟩
    exact ⟨⟨hseeded, hpos, hwords0, by rw [UnitV.lane0, hblk, wideBlock_map_lane0]⟩,
      ⟨hseeded, hpos, hwords1, by rw [UnitV.lane1, hblk, wideBlock_map_lane1]⟩⟩
  · rintro ⟨⟨hseeded, hpos, hwords0, hblk0⟩, ⟨-, -, hwords1, hblk1⟩⟩
    refine ⟨hseeded, hpos, hwords0, hwords1, ext_map_lanes ?_ ?_⟩
    · rw [wideBlock_map_lane0]
      exact hblk0
    · rw [wideBlock_map_lane1]
      exact hblk1

theorem exec_onStreamB {s t : State} {i : Instr} {a b : Word} {r : Nat} (hp : s.cfg.reseed = .fault)
    (hs : s.OnStreamB a b r) (h : exec i s = .next t) :
    ∃ n, t.refillsB = s.refillsB + n ∧ t.OnStreamB a b (r + n) := by
  rw [State.onStreamB_iff] at hs
  simp only [State.onStreamB_iff, exec_cfg h]
  obtain ⟨hb, hrefills⟩ | ⟨-, n, hrefills, hruns⟩ := exec_unitB h
  · exact ⟨0, hrefills, hb ▸ hs⟩
  · exact ⟨n, hrefills, (hp ▸ hruns).onStream hs⟩

theorem exec_onStreamV {s t : State} {i : Instr} {a b : Word} {r : Nat} (hp : s.cfg.reseed = .fault)
    (hs : s.OnStreamV a b r) (h : exec i s = .next t) :
    ∃ n, t.refillsV = s.refillsV + n ∧ t.OnStreamV a b (r + n) := by
  rw [State.onStreamV_iff] at hs
  obtain ⟨hs0, hs1⟩ := hs
  simp only [State.onStreamV_iff, exec_cfg h]
  obtain ⟨hv, hrefills⟩ | ⟨-, n, hrefills, hruns0, hruns1⟩ := exec_unitV h
  · exact ⟨0, hrefills, hv ▸ hs0, hv ▸ hs1⟩
  · exact ⟨n, hrefills, (hp ▸ hruns0).onStream hs0, (hp ▸ hruns1).onStream hs1⟩

/-- Settles O25: under the policy `fault` a command on unit B moves it on by the refills it runs. -/
theorem everyStepKeepsBOnItsStream : Obligations.EveryStepKeepsBOnItsStream := by
  intro s t a b r hp hs h
  obtain ⟨-, rfl⟩ | ⟨w, rest, i, -, -, h⟩ := step_eq_next h
  · exact ⟨le_rfl, by rwa [Nat.sub_self]⟩
  · obtain ⟨n, hrefills, ht⟩ := exec_onStreamB (s := { s with cmds := rest }) hp hs h
    rw [hrefills, Nat.add_sub_cancel_left]
    exact ⟨Nat.le_add_right _ _, ht⟩

/-- Settles O32: under the policy `fault` a command on unit V moves both lanes on by the refills it runs. -/
theorem everyStepKeepsVOnItsStreams : Obligations.EveryStepKeepsVOnItsStreams := by
  intro s t a b r hp hs h
  obtain ⟨-, rfl⟩ | ⟨w, rest, i, -, -, h⟩ := step_eq_next h
  · exact ⟨le_rfl, by rwa [Nat.sub_self]⟩
  · obtain ⟨n, hrefills, ht⟩ := exec_onStreamV (s := { s with cmds := rest }) hp hs h
    rw [hrefills, Nat.add_sub_cancel_left]
    exact ⟨Nat.le_add_right _ _, ht⟩

/-! ## Nonzero states -/

theorem exec_nonzeroWhereSeeded {s t : State} {i : Instr} (hs : s.NonzeroWhereSeeded)
    (hi : i.op = .seed → i.operands ≠ (0, 0)) (h : exec i s = .next t) : t.NonzeroWhereSeeded := by
  obtain ⟨hu, hb, hv⟩ := hs
  refine ⟨fun htseeded => ?_, fun htseeded => ?_, fun htseeded => ?_⟩
  · by_cases hunit : i.unit = .u
    · obtain ⟨hop, htu⟩ | ⟨-, hseeded, htu⟩ | ⟨-, htu⟩ := exec_unitU h hunit
      · rw [htu]
        exact hi hop
      · rw [htu]
        exact streamPair_ne_zero (hu hseeded) 1
      · rw [htu] at htseeded ⊢
        exact hu htseeded
    · rw [exec_u h hunit] at htseeded ⊢
      exact hu htseeded
  · obtain ⟨htb, -⟩ | ⟨-, n, -, hruns⟩ := exec_unitB h
    · rw [htb] at htseeded ⊢
      exact hb htseeded
    · exact hruns.words_ne_zero hi hb
  · obtain ⟨htv, -⟩ | ⟨-, n, -, hruns0, hruns1⟩ := exec_unitV h
    · rw [htv] at htseeded ⊢
      exact hv htseeded
    · have hi' : i.op = .seed → (i.operands.2, i.operands.1) ≠ (0, 0) := fun hop hswap =>
        hi hop (congrArg Prod.swap hswap)
      exact ⟨hruns0.words_ne_zero hi fun hseeded => (hv hseeded).1,
        hruns1.words_ne_zero hi' fun hseeded => (hv hseeded).2⟩

/-- Settles O12: a SEED stores words other than `(0, 0)`, and only the zero state steps to the zero state. -/
theorem nonzeroGeneratorStateStaysNonzero : Obligations.NonzeroGeneratorStateStaysNonzero := by
  intro s t hs hseed h
  obtain ⟨-, rfl⟩ | ⟨w, rest, i, hcmds, hd, h⟩ := step_eq_next h
  · exact hs
  · exact exec_nonzeroWhereSeeded (s := { s with cmds := rest }) hs (hseed w rest hcmds i hd) h

/-! ## Equal lanes -/

theorem State.equalLanes_iff {s : State} : s.EqualLanes ↔ s.v.lane0 = s.v.lane1 := by
  simp only [State.EqualLanes, UnitV.lane0, UnitV.lane1, UnitB.mk.injEq, List.map_inj_left, and_true]

/-- Settles O34: equal lanes run the same operation from the same state, with the same seed words. -/
theorem equalLanesStayEqual : Obligations.EqualLanesStayEqual := by
  intro s t hs hseed h
  obtain ⟨-, rfl⟩ | ⟨w, rest, i, hcmds, hd, h⟩ := step_eq_next h
  · exact hs
  rw [State.equalLanes_iff] at hs ⊢
  obtain ⟨htv, -⟩ | ⟨hunit, n, -, hruns0, hruns1⟩ := exec_unitV (s := { s with cmds := rest }) h
  · rwa [htv]
  · have hoperands : i.operands.1 = i.operands.2 := by
      cases i with
      | seedU | drawU | refillU | seedB | drawB | refillB => cases hunit
      | seedV a b => exact hseed w rest hcmds a b hd
      | drawV | refillV => rfl
    simp only [hoperands, hs] at hruns0 hruns1
    exact hruns0.unique hruns1

/-! ## The flags -/

/-- After a command its unit is seeded if it was before or the command is a SEED. On units B and V both sides always
hold, since the other commands need a seeded unit. -/
theorem exec_seeded_unit {s t : State} {i : Instr} (h : exec i s = .next t) :
    t.seeded i.unit = true ↔ s.seeded i.unit = true ∨ i.op = .seed := by
  cases hunit : i.unit with
  | u =>
    obtain ⟨hop, htu⟩ | ⟨hop, hseeded, htu⟩ | ⟨hop, htu⟩ := exec_unitU h hunit
    · simp [htu, hop]
    · simp [htu, hseeded]
    · simp [htu, hop]
  | b =>
    obtain ⟨n, -, hruns⟩ := exec_runsB h hunit
    exact iff_of_true hruns.seeded hruns.seeded_or_seed
  | v =>
    obtain ⟨n, -, hruns, -⟩ := exec_runsV h hunit
    exact iff_of_true hruns.seeded hruns.seeded_or_seed

theorem exec_seeded_iff {s t : State} {i : Instr} (h : exec i s = .next t) (x : UnitId) :
    t.seeded x = true ↔ s.seeded x = true ∨ (i.op = .seed ∧ i.unit = x) := by
  by_cases hx : i.unit = x
  · subst hx
    rw [exec_seeded_unit h, and_iff_left rfl]
  · rw [exec_seeded_of_ne h hx, or_iff_left fun hseed => hx hseed.2]

/-- Settles O42: a command sets its unit's flag if it is a SEED and writes no other. -/
theorem onlySeedSetsAFlagAndNothingClearsIt : Obligations.OnlySeedSetsAFlagAndNothingClearsIt := by
  intro s t w rest i hcmds hd h
  rw [step_command hcmds hd] at h
  intro x
  have hx := exec_seeded_iff h x
  cases x <;> exact hx

/-- Settles O52: a command runs on its unit alone, and only a SEED sets a flag. -/
theorem commandLeavesOtherUnitsAlone : Obligations.CommandLeavesOtherUnitsAlone := by
  intro s t i h
  refine ⟨?_, exec_b h, exec_v h, fun hop x => ?_, exec_cfg h, exec_cmds h, exec_rsps h⟩
  · rintro (hi | rfl)
    · exact exec_u h hi
    · obtain rfl := execRefillU_eq_next.mp h
      rfl
  · rw [Bool.eq_iff_iff, exec_seeded_iff h, or_iff_left fun hseed => hop hseed.1]

end Sys2Proof.Machine
end

section
/-! PROOF. The parameters of an engine (00_scope.md R7, R8; 60_exceptions.md R237): which numbers are legal, and the
engine they build. -/

namespace Sys2Proof

theorem Width.ofBits?_eq_some_iff {n : Nat} {w : Width} : Width.ofBits? n = some w ↔ w.bits = n := by
  constructor
  · intro h
    unfold Width.ofBits? at h
    split at h <;> cases h <;> rfl
  · rintro rfl
    cases w <;> rfl

/-- The positive divisors of 64 are the powers of 2 up to the sixth, which are the widths. -/
theorem Width.exists_bits_eq_iff {n : Nat} : (∃ w : Width, w.bits = n) ↔ 0 < n ∧ n ∣ 64 := by
  constructor
  · rintro ⟨w, rfl⟩
    exact ⟨w.bits_pos, Dvd.intro _ w.bits_mul_perWord⟩
  · rintro ⟨-, hdvd⟩
    obtain ⟨k, hk, rfl⟩ := (Nat.dvd_prime_pow Nat.prime_two (m := 6)).mp hdvd
    interval_cases k
    exacts [⟨.w1, rfl⟩, ⟨.w2, rfl⟩, ⟨.w4, rfl⟩, ⟨.w8, rfl⟩, ⟨.w16, rfl⟩, ⟨.w32, rfl⟩, ⟨.w64, rfl⟩]

theorem BlockSize.exists_words_eq_iff {n : Nat} : (∃ k : BlockSize, k.words = n) ↔ 2 ≤ n ∧ 2 ∣ n := by
  constructor
  · rintro ⟨k, rfl⟩
    exact ⟨k.two_le_words, Dvd.intro _ k.words_eq.symm⟩
  · rintro ⟨hle, m, rfl⟩
    refine ⟨⟨m - 1⟩, ?_⟩
    rw [BlockSize.words_eq, BlockSize.pairs, Nat.sub_add_cancel (by omega)]

theorem BlockSize.ofWords?_eq_some_iff {n : Nat} {k : BlockSize} : BlockSize.ofWords? n = some k ↔ k.words = n := by
  obtain ⟨m⟩ := k
  simp only [BlockSize.ofWords?, Option.ite_none_right_eq_some, Option.some.injEq, BlockSize.mk.injEq, BlockSize.words,
    BlockSize.pairs]
  omega

/-- The engine that parameters build is the one that has them. -/
theorem Params.build_eq_some_iff {p : Params} {c : Config} :
    p.build = some c ↔ c.wU.bits = p.wU ∧ c.wB.bits = p.wB ∧ c.wV.bits = p.wV ∧ c.blockB.words = p.blockB ∧
      c.blockV.words = p.blockV ∧ c.reseed = p.reseed ∧ p.lanes = Config.lanes := by
  simp only [← Width.ofBits?_eq_some_iff, ← BlockSize.ofWords?_eq_some_iff]
  obtain ⟨wU, wB, wV, bB, bV, policy⟩ := c
  unfold Params.build
  split
  · next hU hB hV hbB hbV =>
    simp only [hU, hB, hV, hbB, hbV, Option.ite_none_right_eq_some, Option.some.injEq, Config.mk.injEq,
      @eq_comm _ policy]
    tauto
  · next hnone =>
    refine iff_of_false nofun fun ⟨hU, hB, hV, hbB, hbV, _⟩ => ?_
    exact hnone _ _ _ _ _ hU hB hV hbB hbV

theorem Params.build_isSome_iff {p : Params} : p.build.isSome = true ↔
    (∃ w : Width, w.bits = p.wU) ∧ (∃ w : Width, w.bits = p.wB) ∧ (∃ w : Width, w.bits = p.wV) ∧
      (∃ k : BlockSize, k.words = p.blockB) ∧ (∃ k : BlockSize, k.words = p.blockV) ∧ p.lanes = Config.lanes := by
  simp only [Option.isSome_iff_exists, Params.build_eq_some_iff]
  constructor
  · rintro ⟨c, hU, hB, hV, hbB, hbV, -, hlanes⟩
    exact ⟨⟨_, hU⟩, ⟨_, hB⟩, ⟨_, hV⟩, ⟨_, hbB⟩, ⟨_, hbV⟩, hlanes⟩
  · rintro ⟨⟨wU, hU⟩, ⟨wB, hB⟩, ⟨wV, hV⟩, ⟨bB, hbB⟩, ⟨bV, hbV⟩, hlanes⟩
    exact ⟨⟨wU, wB, wV, bB, bV, p.reseed⟩, hU, hB, hV, hbB, hbV, rfl, hlanes⟩

/-- The parameters of an engine as plain numbers. -/
def Config.params (c : Config) : Params :=
  ⟨c.wU.bits, c.wB.bits, c.wV.bits, c.blockB.words, c.blockV.words, Config.lanes, c.reseed⟩

theorem Width.legalWidth_bits (w : Width) : legalWidth w.bits = true := by cases w <;> decide

theorem BlockSize.legalBlock_words (k : BlockSize) : legalBlock k.words = true := by
  simp [legalBlock, k.two_le_words, k.words_even]

theorem Config.wf_params (c : Config) : c.params.wf = true := by
  simp [Params.wf, Config.params, Width.legalWidth_bits, BlockSize.legalBlock_words]

theorem Config.build_params (c : Config) : c.params.build = some c :=
  Params.build_eq_some_iff.mpr ⟨rfl, rfl, rfl, rfl, rfl, rfl, rfl⟩

/-- Settles O8: the engine built has the parameters given, so there is one exactly when each is a number that some width
or block size has; and a command runs on one unit, which does not hold the parameters. -/
theorem engineIsBuiltExactlyForLegalParameters : Obligations.EngineIsBuiltExactlyForLegalParameters := by
  refine ⟨fun p => ?_, fun p c h => ?_, fun c => ⟨c.params, c.wf_params, c.build_params⟩,
    fun s t => Machine.step_cfg⟩
  · rw [Params.build_isSome_iff]
    simp only [Width.exists_bits_eq_iff, BlockSize.exists_words_eq_iff, Config.lanes]
  · obtain ⟨hU, hB, hV, hbB, hbV, hreseed, -⟩ := Params.build_eq_some_iff.mp h
    refine ⟨hU, hB, hV, hbB, hbV, hreseed, ?_, ?_⟩
    · rw [Config.itemsB, Width.perWord, hbB, hB]
    · rw [Config.itemsV, Width.perWord, Config.lanes, hbV, hV]

end Sys2Proof
end

section
/-! PROOF. Words in the buffers (20_memory.md section 2), the state after reset (10_state.md section 10), and a step by
the word that waits (44_sequencing.md section 1). -/

namespace Sys2Proof.Machine

/-! ## Elements and buffer writes -/

theorem element_toNat (w : Width) (j : Nat) (x : Word) :
    (element w j x).toNat = x.toNat / 2 ^ (w.bits * j) % 2 ^ w.bits := by
  rw [element, BitVec.extractLsb'_toNat, Nat.shiftRight_eq_div_pow]

/-- A number's digits in base `2^w`, each at its place, sum to the number. -/
theorem sum_digits_eq_mod (w x n : Nat) :
    ((List.range n).map fun j => x / 2 ^ (w * j) % 2 ^ w * 2 ^ (w * j)).sum = x % 2 ^ (w * n) := by
  induction n with
  | zero => rw [Nat.mul_zero, Nat.pow_zero, Nat.mod_one]; rfl
  | succ n ih =>
    rw [List.range_succ, List.map_append, List.sum_append, ih, Nat.mul_succ, Nat.pow_add, Nat.mod_mul,
      List.map_singleton, List.sum_singleton, Nat.mul_comm (2 ^ (w * n))]

/-- Settles O37: the elements are the digits of the word in base `2^W`. -/
theorem elementsHoldTheWholeWord : Obligations.ElementsHoldTheWholeWord := by
  intro w x
  simp only [element_toNat]
  rw [sum_digits_eq_mod]
  change _ = x.toNat % 2 ^ (w.bits * w.perWord)
  rw [w.bits_mul_perWord, Nat.mod_eq_of_lt x.isLt]

theorem getElem?_set_of_lt {α : Type} {l : List α} {i : Nat} (hi : i < l.length) (j : Nat) (x : α) :
    (l.set i x)[j]? = if j = i then some x else l[j]? := by
  rw [List.getElem?_set]
  by_cases hij : i = j
  · rw [if_pos hij, if_pos (hij ▸ hi), if_pos hij.symm]
  · rw [if_neg hij, if_neg (Ne.symm hij)]

/-- Settles O38: a write sets one entry of the buffer's list. -/
theorem bufferWriteSetsOneWord : Obligations.BufferWriteSetsOneWord :=
  ⟨fun _ _ j x hi => ⟨getElem?_set_of_lt hi j x, rfl⟩, fun _ _ j x hi => ⟨getElem?_set_of_lt hi j x, rfl⟩⟩

/-! ## Reset -/

/-- Settles O39: the three flags are 0 after reset. -/
theorem resetLeavesEveryUnitUnseeded : Obligations.ResetLeavesEveryUnitUnseeded := by
  intro c
  have hseeded := State.seeded_resetWith c
  exact ⟨hseeded, State.phase_eq_unseeded_iff.mpr (hseeded .b), State.phase_eq_unseeded_iff.mpr (hseeded .v),
    rfl, rfl, rfl⟩

/-- Settles O40: the buffers have their built size after reset, and the cursors are 0. -/
theorem resetMeetsTheInvariant : Obligations.ResetMeetsTheInvariant :=
  ⟨State.inv_resetWith, State.inv_resetWith resetConfig⟩

/-! ## The step -/

/-- Settles O44: the step decodes the oldest word and runs its command. -/
theorem stepRunsTheDecodedCommand : Obligations.StepRunsTheDecodedCommand := fun _ _ _ _ => step_command

/-- Settles O45: the step without a word. -/
theorem idleEngineKeepsItsState : Obligations.IdleEngineKeepsItsState := fun _ => step_nil

end Sys2Proof.Machine
end

section
/-! PROOF. The assembler reads back the line it writes for a command (30_encoding.md R92): hexadecimal digits, then
operands, then lines. -/

namespace Sys2Proof.Machine

/-! ## Comments and blanks -/

theorem stripComment_eq_self {cs : List Char} (h : '-' ∉ cs) : stripComment cs = cs := by
  induction cs with
  | nil => rfl
  | cons c cs ih =>
    rw [List.mem_cons, not_or] at h
    rw [stripComment, if_neg fun hc => h.1 hc.1.symm, ih h.2]

theorem dropWhile_eq_self_of_head? {p : Char → Bool} {cs : List Char} (h : ∀ c ∈ cs.head?, p c = false) :
    cs.dropWhile p = cs := by
  cases cs with
  | nil => rfl
  | cons c cs => exact List.dropWhile_cons_of_neg (by simp [h c rfl])

theorem trimBlanks_eq_self {cs : List Char} (hfirst : ∀ c ∈ cs.head?, isBlank c = false)
    (hlast : ∀ c ∈ cs.getLast?, isBlank c = false) : trimBlanks cs = cs := by
  rw [trimBlanks, dropWhile_eq_self_of_head? hfirst, dropWhile_eq_self_of_head? (by rwa [List.head?_reverse]),
    List.reverse_reverse]

theorem trimBlanks_cons_of_isBlank {c : Char} (hc : isBlank c = true) (cs : List Char) :
    trimBlanks (c :: cs) = trimBlanks cs := by
  rw [trimBlanks, List.dropWhile_cons_of_pos hc, trimBlanks]

/-! ## Hexadecimal digits -/

/-- A character that neither ends an operand nor starts a comment. -/
def isPlain (c : Char) : Bool := c != '-' && c != ',' && !isBlank c

theorem digitVal_hexChar : ∀ d < 16, digitVal 16 (hexChar d) = some d := by decide

theorem isPlain_hexChar : ∀ d < 16, isPlain (hexChar d) = true := by decide

theorem digitsVal_append (base acc : Nat) (cs ds : List Char) :
    digitsVal base acc (cs ++ ds) = (digitsVal base acc cs).bind fun v => digitsVal base v ds := by
  induction cs generalizing acc with
  | nil => rfl
  | cons c cs ih =>
    simp only [List.cons_append, digitsVal]
    cases digitVal base c with
    | none => rfl
    | some d => exact ih _

/-- The digits written for a number are read as that number. -/
theorem digitsVal_hexDigits (n x acc : Nat) :
    digitsVal 16 acc (hexDigits n x) = some (acc * 16 ^ n + x % 16 ^ n) := by
  induction n generalizing x with
  | zero => simp [hexDigits, digitsVal, Nat.mod_one]
  | succ n ih =>
    rw [hexDigits, digitsVal_append, ih, Option.bind_some, digitsVal,
      digitVal_hexChar _ (Nat.mod_lt x (by decide))]
    simp only [digitsVal, Option.some.injEq]
    rw [Nat.pow_succ', Nat.mod_mul, Nat.add_mul]
    ring

theorem isPlain_of_mem_hexDigits {n x : Nat} {c : Char} (hc : c ∈ hexDigits n x) : isPlain c = true := by
  induction n generalizing x with
  | zero => cases hc
  | succ n ih =>
    rw [hexDigits, List.mem_append, List.mem_singleton] at hc
    obtain hc | rfl := hc
    · exact ih hc
    · exact isPlain_hexChar _ (Nat.mod_lt x (by decide))

/-! ## Operands -/

theorem isPlain_of_mem_wordText {x : Word} {c : Char} (hc : c ∈ wordText x) : isPlain c = true := by
  rw [wordText, List.mem_cons, List.mem_cons] at hc
  obtain rfl | rfl | hc := hc
  · decide
  · decide
  · exact isPlain_of_mem_hexDigits hc

theorem isBlank_of_isPlain {c : Char} (h : isPlain c = true) : isBlank c = false := by
  simp only [isPlain, Bool.and_eq_true, Bool.not_eq_true'] at h
  exact h.2

theorem ne_comma_of_isPlain {c : Char} (h : isPlain c = true) : (c != ',') = true := by
  simp only [isPlain, Bool.and_eq_true] at h
  exact h.1.2

theorem not_mem_of_isPlain {cs : List Char} (h : ∀ c ∈ cs, isPlain c = true) : '-' ∉ cs := fun hmem =>
  absurd (h _ hmem) (by decide)

theorem parseNumber_wordText (x : Word) : parseNumber (wordText x) = some x.toNat := by
  have hdigits : digitsVal 16 0 (hexDigits 16 x.toNat) = some x.toNat := by
    rw [digitsVal_hexDigits, Nat.zero_mul, Nat.zero_add, Nat.mod_eq_of_lt (show x.toNat < 16 ^ 16 from x.isLt)]
  have hne : (hexDigits 16 x.toNat).isEmpty = false := by simp [hexDigits]
  simp [parseNumber, wordText, hdigits, hne]

theorem parseOperand_blank_wordText (x : Word) : parseOperand (' ' :: wordText x) = some x := by
  have htrim : trimBlanks (' ' :: wordText x) = wordText x := by
    rw [trimBlanks_cons_of_isBlank rfl, trimBlanks_eq_self]
    · exact fun c hc => isBlank_of_isPlain (isPlain_of_mem_wordText (List.mem_of_mem_head? hc))
    · exact fun c hc => isBlank_of_isPlain (isPlain_of_mem_wordText (List.mem_of_mem_getLast? hc))
  simp only [parseOperand, htrim, parseNumber_wordText]
  rw [if_pos x.isLt, BitVec.ofNat_toNat, BitVec.setWidth_eq]

/-- The text of the operands splits at its one comma. -/
theorem parseOperands_operandsText (a b : Word) : parseOperands (operandsText a b) = some (a, b) := by
  have hplain : ∀ c ∈ ' ' :: wordText a, (c != ',') = true := by
    rintro c (_ | ⟨_, hc⟩)
    · decide
    · exact ne_comma_of_isPlain (isPlain_of_mem_wordText hc)
  have htake : (operandsText a b).takeWhile (· != ',') = ' ' :: wordText a := by
    rw [operandsText, ← List.cons_append, List.takeWhile_append_of_pos hplain]
    simp
  have hdrop : (operandsText a b).dropWhile (· != ',') = ',' :: ' ' :: wordText b := by
    rw [operandsText, ← List.cons_append, List.dropWhile_append_of_pos hplain]
    simp
  simp only [parseOperands, htake, hdrop, parseOperand_blank_wordText]
  rfl

/-! ## Lines -/

/-- The letters of a SEED's line before its operands (30_encoding.md R92). -/
def seedText : UnitId → List Char
  | .u => ['S', 'E', 'E', 'D', '.', 'U']
  | .b => ['S', 'E', 'E', 'D', '.', 'B']
  | .v => ['S', 'E', 'E', 'D', '.', 'V']

theorem isPlain_of_mem_seedText (x : UnitId) : ∀ c ∈ seedText x, isPlain c = true :=
  List.all_eq_true.mp (by cases x <;> rfl)

theorem lineOf_seedOf (x : UnitId) (a b : Word) : lineOf (seedOf x a b) = seedText x ++ operandsText a b := by
  cases x <;> rfl

/-- A SEED's line has no comment and no blank at its ends. -/
theorem trimBlanks_stripComment_seed (x : UnitId) (a b : Word) :
    trimBlanks (stripComment (seedText x ++ operandsText a b)) = seedText x ++ operandsText a b := by
  have hdash : '-' ∉ seedText x ++ operandsText a b := by
    have hx := not_mem_of_isPlain (isPlain_of_mem_seedText x)
    have ha := not_mem_of_isPlain fun c => isPlain_of_mem_wordText (x := a) (c := c)
    have hb := not_mem_of_isPlain fun c => isPlain_of_mem_wordText (x := b) (c := c)
    simp [operandsText, hx, ha, hb]
  have hfirst : (seedText x ++ operandsText a b).head? = some 'S' := by cases x <;> rfl
  have hlast : (seedText x ++ operandsText a b).getLast? = (wordText b).getLast? := by
    have hsplit : seedText x ++ operandsText a b = (seedText x ++ ' ' :: wordText a ++ [',', ' ']) ++ wordText b := by
      simp [operandsText]
    exact hsplit ▸ List.getLast?_append_of_ne_nil _ (List.cons_ne_nil _ _)
  rw [stripComment_eq_self hdash, trimBlanks_eq_self]
  · rw [hfirst]
    rintro c ⟨⟩
    rfl
  · rw [hlast]
    exact fun c hc => isBlank_of_isPlain (isPlain_of_mem_wordText (List.mem_of_mem_getLast? hc))

theorem assembleLine_seed (x : UnitId) (a b : Word) :
    assembleLine (lineOf (seedOf x a b)) = .command (seedOf x a b) := by
  rw [lineOf_seedOf, assembleLine, trimBlanks_stripComment_seed]
  cases x <;> simp [seedText, parseOp, parseUnit, parseOperands_operandsText]

/-- Settles O7: a SEED's line splits into its letters and its two operands, the other lines are closed texts. -/
theorem assemblerReadsWhatItWrites : Obligations.AssemblerReadsWhatItWrites := by
  intro i
  cases i with
  | seedU a b => exact assembleLine_seed .u a b
  | seedB a b => exact assembleLine_seed .b a b
  | seedV a b => exact assembleLine_seed .v a b
  | drawU | refillU | drawB | refillB | drawV | refillV => decide

end Sys2Proof.Machine
end

section
/-! PROOF. The host's contract (44_sequencing.md sections 1 and 5): the precondition of each command, and what a run
over all the waiting words comes to. -/

namespace Sys2Proof.Machine

/-! ## The precondition of a command -/

theorem State.flags_has (s : State) (x : UnitId) : s.flags.has x = s.seeded x := by cases x <;> rfl

theorem State.allow_seed (s : State) (p : ReseedPolicy) (x : UnitId) (a b : Word) :
    s.flags.allow p (mkInstr x .seed a b) = (!s.seeded x || p == .reinit) := by
  cases x <;> rfl

theorem State.allow_draw (s : State) (p : ReseedPolicy) (x : UnitId) (a b : Word) :
    s.flags.allow p (mkInstr x .draw a b) = s.seeded x := by
  cases x <;> rfl

theorem State.allow_refill (s : State) (p : ReseedPolicy) (x : UnitId) (a b : Word) :
    s.flags.allow p (mkInstr x .refill a b) = (x == .u || s.seeded x) := by
  cases x <;> rfl

theorem exec_completes_of_allow {s : State} {i : Instr} (hinv : s.Inv) (h : s.flags.allow s.cfg.reseed i = true) :
    ∃ t, exec i s = .next t := by
  obtain ⟨x, o, a, b, rfl⟩ := exists_eq_mkInstr i
  cases o with
  | seed =>
    rw [State.allow_seed] at h
    refine ⟨_, exec_seed_of_allowed hinv ?_ a b⟩
    rintro ⟨hseeded, hp⟩
    rw [hseeded, hp] at h
    cases h
  | draw =>
    rw [State.allow_draw] at h
    exact exec_draw_completes hinv h a b
  | refill =>
    rw [State.allow_refill, Bool.or_eq_true, beq_iff_eq] at h
    exact exec_refill_completes h.resolve_left a b

theorem exec_fault_of_not_allow {s : State} {i : Instr} (h : s.flags.allow s.cfg.reseed i = false) :
    exec i s = .fault (contractFault i) := by
  obtain ⟨x, o, a, b, rfl⟩ := exists_eq_mkInstr i
  have hfault : contractFault (mkInstr x o a b) = match o with | .seed => .reseed x | _ => .unseeded x := by
    cases x <;> cases o <;> rfl
  rw [hfault]
  cases o with
  | seed =>
    rw [State.allow_seed, Bool.or_eq_false_iff, Bool.not_eq_false'] at h
    obtain ⟨hseeded, hp⟩ := h
    exact exec_seed_of_seeded hseeded (by cases hs : s.cfg.reseed <;> simp_all) a b
  | draw =>
    rw [State.allow_draw] at h
    exact exec_draw_of_unseeded h a b
  | refill =>
    rw [State.allow_refill, Bool.or_eq_false_iff, beq_eq_false_iff_ne] at h
    exact exec_refill_of_unseeded h.1 h.2 a b

theorem exec_completes_iff_allow {s : State} (hinv : s.Inv) {i : Instr} :
    (∃ t, exec i s = .next t) ↔ s.flags.allow s.cfg.reseed i = true := by
  refine ⟨fun ⟨t, ht⟩ => ?_, exec_completes_of_allow hinv⟩
  by_contra h
  cases ht.symm.trans (exec_fault_of_not_allow (Bool.eq_false_iff.mpr h))

/-- Settles O48: a command whose precondition holds completes, one whose precondition is broken raises its fault. -/
theorem commandCompletesExactlyWhenAllowed : Obligations.CommandCompletesExactlyWhenAllowed :=
  fun _ _ hinv => ⟨exec_completes_iff_allow hinv, exec_fault_of_not_allow⟩

/-! ## The flags after a command -/

theorem SeededFlags.ext_has {f g : SeededFlags} (h : ∀ x, f.has x = g.has x) : f = g := by
  obtain ⟨fu, fb, fv⟩ := f
  obtain ⟨gu, gb, gv⟩ := g
  rw [SeededFlags.mk.injEq]
  exact ⟨h .u, h .b, h .v⟩

theorem SeededFlags.has_seed (f : SeededFlags) (x y : UnitId) : (f.seed x).has y = true ↔ f.has y = true ∨ x = y := by
  cases x <;> cases y <;> simp [SeededFlags.seed, SeededFlags.has]

theorem SeededFlags.has_after (f : SeededFlags) (i : Instr) (x : UnitId) :
    (f.after i).has x = true ↔ f.has x = true ∨ (i.op = .seed ∧ i.unit = x) := by
  unfold SeededFlags.after
  cases i.op with
  | seed => rw [SeededFlags.has_seed, and_iff_right rfl]
  | draw | refill => exact (or_iff_left fun h => nomatch h.1).symm

theorem exec_flags {s t : State} {i : Instr} (h : exec i s = .next t) : t.flags = s.flags.after i := by
  refine SeededFlags.ext_has fun x => ?_
  rw [Bool.eq_iff_iff, SeededFlags.has_after, State.flags_has, State.flags_has, exec_seeded_iff h]

/-! ## Runs over all the waiting words -/

theorem SeededFlags.keepsContract_command {w : CmdWord} {i : Instr} (hd : decode w = .command i) (f : SeededFlags)
    (p : ReseedPolicy) (ws : List CmdWord) :
    f.keepsContract p (w :: ws) = (f.allow p i && (f.after i).keepsContract p ws) := by
  rw [SeededFlags.keepsContract, hd]

theorem SeededFlags.keepsContract_reserved {w : CmdWord} {top : BitVec 4} (hd : decode w = .reserved top)
    (f : SeededFlags) (p : ReseedPolicy) (ws : List CmdWord) : f.keepsContract p (w :: ws) = false := by
  rw [SeededFlags.keepsContract, hd]

/-- A run whose first step faults is not safe. -/
theorem not_runsSafely_of_fault {s : State} {w : CmdWord} {ws : List CmdWord} {f : Fault} (hcmds : s.cmds = w :: ws)
    (h : step s = .fault f) : ¬s.runsSafely := by
  rintro ⟨t, ht⟩
  rw [hcmds, List.length_cons, run_succ_of_fault h] at ht
  cases ht

theorem runsSafely_iff_of_next {s t : State} {w : CmdWord} (hcmds : s.cmds = w :: t.cmds) (h : step s = .next t) :
    s.runsSafely ↔ t.runsSafely := by
  rw [State.runsSafely, State.runsSafely, hcmds, List.length_cons, run_succ_of_next h]

theorem runsSafely_iff_keepsContract (ws : List CmdWord) : ∀ {s : State}, s.Inv → s.cmds = ws →
    (s.runsSafely ↔ s.flags.keepsContract s.cfg.reseed ws = true) := by
  induction ws with
  | nil => exact fun {s} _ hcmds => iff_of_true ⟨s, by rw [hcmds]; rfl⟩ rfl
  | cons w ws ih =>
    intro s hinv hcmds
    cases hd : decode w with
    | reserved top =>
      rw [SeededFlags.keepsContract_reserved hd]
      exact iff_of_false (not_runsSafely_of_fault hcmds (step_reserved hcmds hd)) Bool.false_ne_true
    | command i =>
      have hinv' : { s with cmds := ws }.Inv := hinv
      have hstep := step_command hcmds hd
      rw [SeededFlags.keepsContract_command hd, Bool.and_eq_true]
      by_cases hallow : s.flags.allow s.cfg.reseed i = true
      · obtain ⟨t, ht⟩ := exec_completes_of_allow hinv' hallow
        have htcmds : t.cmds = ws := exec_cmds ht
        rw [and_iff_right hallow, runsSafely_iff_of_next (htcmds.symm ▸ hcmds) (hstep.trans ht),
          ih (exec_inv ht hinv') htcmds, exec_flags ht, exec_cfg ht]
        rfl
      · have hfault := exec_fault_of_not_allow (s := { s with cmds := ws }) (Bool.eq_false_iff.mpr hallow)
        exact iff_of_false (not_runsSafely_of_fault hcmds (hstep.trans hfault)) fun h => hallow h.1

/-- Settles O49: by induction on the waiting words, each a command whose precondition the flags so far decide. -/
theorem runIsSafeExactlyWhenTheHostKeepsItsContract : Obligations.RunIsSafeExactlyWhenTheHostKeepsItsContract :=
  fun s hinv => runsSafely_iff_keepsContract s.cmds hinv rfl

/-! ## The order of the responses -/

/-- A step that takes a word runs its command and gives one response. -/
theorem step_cons_eq_next {s t : State} {w : CmdWord} {ws : List CmdWord} (hcmds : s.cmds = w :: ws)
    (h : step s = .next t) : ∃ i r, decode w = .command i ∧ exec i { s with cmds := ws } = .next t ∧ t.cmds = ws ∧
      t.rsps = s.rsps ++ [r] := by
  cases hd : decode w with
  | reserved top => cases (step_reserved hcmds hd).symm.trans h
  | command i =>
    have hexec := (step_command hcmds hd).symm.trans h
    obtain ⟨r, hr⟩ := exec_rsps hexec
    exact ⟨i, r, rfl, hexec, exec_cmds hexec, hr⟩

/-- A run that completes passes through a state after any number of its steps. -/
theorem run_add_eq_next {m n : Nat} {s t : State} (h : Host.Core.run core (m + n) s = .next t) :
    ∃ u, Host.Core.run core m s = .next u ∧ Host.Core.run core n u = .next t := by
  induction m generalizing s with
  | zero => exact ⟨s, rfl, by rwa [Nat.zero_add] at h⟩
  | succ m ih =>
    rw [Nat.add_right_comm] at h
    obtain ⟨s', hs, hr⟩ := run_succ_eq_next h
    obtain ⟨u, hu, ht⟩ := ih hr
    exact ⟨u, by rwa [run_succ_of_next hs], ht⟩

/-- A run of no more steps than words wait takes a word and gives a response with each. -/
theorem run_takes_words {k : Nat} {s t : State} (h : Host.Core.run core k s = .next t) (hk : k ≤ s.cmds.length) :
    t.cmds = s.cmds.drop k ∧ ∃ given, t.rsps = s.rsps ++ given ∧ given.length = k := by
  induction k generalizing s with
  | zero =>
    cases h
    exact ⟨rfl, [], (List.append_nil _).symm, rfl⟩
  | succ k ih =>
    obtain ⟨s', hs, hr⟩ := run_succ_eq_next h
    obtain ⟨w, ws, hcmds⟩ := List.exists_cons_of_length_pos (Nat.zero_lt_of_lt hk)
    obtain ⟨i, r, -, -, hcmds', hrsps'⟩ := step_cons_eq_next hcmds hs
    rw [hcmds, List.length_cons, Nat.add_le_add_iff_right, ← hcmds'] at hk
    obtain ⟨hdrop, given, hrsps, hlen⟩ := ih hr hk
    exact ⟨by rw [hdrop, hcmds, hcmds', List.drop_succ_cons],
      r :: given, by rw [hrsps, hrsps', List.append_assoc, List.singleton_append], by rw [List.length_cons, hlen]⟩

/-- Settles O51: the run is cut before and after its `k`-th step, and each part takes its words and gives its
responses. -/
theorem runAnswersEveryCommandInOrder : Obligations.RunAnswersEveryCommandInOrder := by
  intro s t h
  obtain ⟨hcmds, given, hgiven, hlen⟩ := run_takes_words h le_rfl
  refine ⟨by rw [hcmds, List.drop_length], given, hgiven, hlen, fun k w hw => ?_⟩
  obtain ⟨hk, rfl⟩ := List.getElem?_eq_some_iff.mp hw
  obtain ⟨d, hd⟩ := Nat.exists_eq_add_of_lt hk
  rw [hd, Nat.add_assoc] at h
  obtain ⟨before, hbefore, hfrom⟩ := run_add_eq_next h
  obtain ⟨after, hstep, hrest⟩ := run_succ_eq_next hfrom
  obtain ⟨hcmdsB, given₁, hgiven₁, hlen₁⟩ := run_takes_words hbefore hk.le
  rw [List.drop_eq_getElem_cons hk] at hcmdsB
  obtain ⟨i, r, hdecode, hexec, hcmdsA, hr⟩ := step_cons_eq_next hcmdsB hstep
  have hdle : d ≤ after.cmds.length := by rw [hcmdsA, List.length_drop]; omega
  obtain ⟨-, given₂, hgiven₂, -⟩ := run_takes_words hrest hdle
  have hsplit : given = given₁ ++ r :: given₂ := by
    rw [hgiven, hr, hgiven₁] at hgiven₂
    simpa using hgiven₂
  refine ⟨before, i, after, r, hbefore, hcmdsB, ?_, hdecode, hexec, hr, ?_⟩
  · rw [hgiven₁, hsplit, List.take_left' hlen₁]
  · rw [hsplit, List.getElem?_append_right hlen₁.le, hlen₁, Nat.sub_self, List.getElem?_cons_zero]

end Sys2Proof.Machine
end

section
/-! PROOF. Runs of one SEED and `n` DRAWs (41_unbuffered.md, 42_buffered.md and 43_vector.md, section 6 of each): the
draws answer the words of the seed's stream in order. -/

namespace Sys2Proof.Machine

/-! ## A run of one command repeated -/

section
variable {P : Nat → State → Prop} {i : Instr}

/-- What each repetition takes one further, a run of `m` repetitions takes `m` further. -/
theorem run_replicate (hport : ∀ {n t} cmds, P n t → P n { t with cmds := cmds })
    (hexec : ∀ {n t}, P n t → ∃ t', exec i t = .next t' ∧ P (n + 1) t') (m : Nat) :
    ∀ {n : Nat} {t : State}, P n t → t.cmds = List.replicate m (encode i) →
      ∃ t', Host.Core.run core m t = .next t' ∧ P (n + m) t' := by
  induction m with
  | zero => exact fun {n t} ht _ => ⟨t, rfl, ht⟩
  | succ m ih =>
    intro n t ht hcmds
    obtain ⟨t₁, hexec₁, ht₁⟩ := hexec (hport (List.replicate m (encode i)) ht)
    obtain ⟨t', hrun, ht'⟩ := ih ht₁ (exec_cmds hexec₁)
    exact ⟨t', (run_succ_of_exec hcmds hexec₁ m).trans hrun, by rwa [Nat.add_right_comm, Nat.add_assoc] at ht'⟩

/-- A first command and then `n` repetitions of another. -/
theorem run_cons_replicate (hport : ∀ {n t} cmds, P n t → P n { t with cmds := cmds })
    (hexec : ∀ {n t}, P n t → ∃ t', exec i t = .next t' ∧ P (n + 1) t') {s t₀ : State} {first : Instr} {n : Nat}
    (hfirst : exec first (s.sends (List.replicate n i)) = .next t₀) (h₀ : P 0 t₀) :
    ∃ t, Host.Core.run core (n + 1) (s.sends (first :: List.replicate n i)) = .next t ∧ P n t := by
  have hcmds : t₀.cmds = List.replicate n (encode i) := (exec_cmds hfirst).trans (s.sends_cmds_replicate n i)
  obtain ⟨t, hrun, ht⟩ := run_replicate hport hexec n h₀ hcmds
  exact ⟨t, (run_sends_cons hfirst n).trans hrun, by rwa [Nat.zero_add] at ht⟩

end

/-- The responses after a SEED and `n` draws, the `e`-th of which answers `f e`. -/
def answers (f : Nat → Word) (n : Nat) : List Response := .void :: (List.range n).map fun e => .data (f e)

theorem answers_succ (f : Nat → Word) (n : Nat) : answers f (n + 1) = answers f n ++ [.data (f n)] := by
  rw [answers, List.range_succ, List.map_append]
  rfl

theorem answers_length (f : Nat → Word) (n : Nat) : (answers f n).length = n + 1 := by
  rw [answers, List.length_cons, List.length_map, List.length_range]

/-! ## Unit U -/

/-- `t` is `s` after a seed of unit U with `(a, b)` and `n` draws (41_unbuffered.md R135). -/
structure State.DrewU (s : State) (a b : Word) (n : Nat) (t : State) : Prop where
  cfg : t.cfg = s.cfg
  u : t.u = ⟨(streamPair a b n).1, (streamPair a b n).2, true⟩
  others : t.b = s.b ∧ t.v = s.v
  rsps : t.rsps = s.rsps ++ answers (fun e => bitField (streamOut a b e) s.cfg.wU 0) n

theorem State.DrewU.exec_drawU {s t : State} {a b : Word} {n : Nat} (h : s.DrewU a b n t) :
    ∃ t', exec .drawU t = .next t' ∧ s.DrewU a b (n + 1) t' := by
  obtain ⟨hcfg, hu, hothers, hrsps⟩ := h
  refine ⟨_, exec_drawU_of_seeded (by rw [hu]), hcfg, ?_, hothers, ?_⟩
  · rw [State.respond_u, State.putU_u, hu, streamPair_succ]
  · rw [State.respond_rsps, State.putU_rsps, hrsps, hcfg, hu, answers_succ, List.append_assoc]
    rfl

theorem run_seedU_draws {s : State} (h : s.u.seeded = false) (a b : Word) (n : Nat) :
    ∃ t, Host.Core.run core (n + 1) (s.sends (.seedU a b :: List.replicate n .drawU)) = .next t ∧ s.DrewU a b n t :=
  run_cons_replicate (P := s.DrewU a b) (fun _ ⟨hcfg, hu, hothers, hrsps⟩ => ⟨hcfg, hu, hothers, hrsps⟩)
    State.DrewU.exec_drawU (exec_seedU_of_unseeded (s := s.sends _) h a b) ⟨rfl, rfl, ⟨rfl, rfl⟩, rfl⟩

/-- Settles O17: each draw answers the next word of the stream and leaves the next pair. -/
theorem drawsOfUFollowTheStream : Obligations.DrawsOfUFollowTheStream := by
  intro s a b n h
  obtain ⟨t, hrun, -, hu, ⟨hb, hv⟩, hrsps⟩ := run_seedU_draws h a b n
  exact ⟨t, hrun, by rw [hu], hb, hv, hrsps⟩

/-! ## Items by block and by number -/

/-- Item `c` of block `r`, of `m` words of `p` elements, by its number: the word and the element. -/
theorem item_index (r m p c : Nat) (hp : 0 < p) :
    (r * (m * p) + c) / p = r * m + c / p ∧ (r * (m * p) + c) % p = c % p := by
  rw [← Nat.mul_assoc, Nat.add_comm, Nat.add_mul_div_right _ _ hp, Nat.add_mul_mod_self_right, Nat.add_comm]
  exact ⟨rfl, rfl⟩

/-! ## Unit B -/

/-- A draw of unit B that takes item `c` of the stream's block number `r` (from zero) and leaves the unit on that block
(42_buffered.md R155). -/
structure State.TakesB (s : State) (a b : Word) (r c : Nat) (t : State) : Prop where
  exec : exec .drawB s = .next t
  onStream : t.OnStreamB a b (r + 1)
  cur : t.b.cur = c + 1
  rsps : t.rsps = s.rsps ++ [.data (bitField (streamOut a b (r * s.cfg.blockB.words + c / s.cfg.wB.perWord)) s.cfg.wB
    (c % s.cfg.wB.perWord))]

theorem State.OnStreamB.blk_length {s : State} {a b : Word} {r : Nat} (h : s.OnStreamB a b r) :
    s.b.blk.length = s.cfg.blockB.words :=
  (State.onStreamB_iff.mp h).blk_length

theorem State.OnStreamB.takesB_of_lt {s : State} {a b : Word} {r : Nat} (h : s.OnStreamB a b (r + 1))
    (hc : s.b.cur < s.cfg.itemsB) : ∃ t, s.TakesB a b r s.b.cur t := by
  obtain ⟨y, hy, hdraw⟩ := exec_drawB_of_lt h.blk_length h.1 hc
  obtain ⟨hseeded, hpos, hwords, hblk⟩ := h
  have hyword : y = streamOut a b (r * s.cfg.blockB.words + s.b.cur / s.cfg.wB.perWord) := by
    rw [hblk, streamBlock_getElem?, Option.ite_none_right_eq_some, Nat.add_sub_cancel] at hy
    exact (Option.some.inj hy.2).symm
  exact ⟨_, hdraw, ⟨hseeded, hpos, hwords, hblk⟩, rfl, by rw [hyword]⟩

theorem State.OnStreamB.takesB_of_exhausted {s : State} {a b : Word} {r : Nat} (h : s.OnStreamB a b (r + 1))
    (hc : s.b.cur = s.cfg.itemsB) : ∃ t, s.TakesB a b (r + 1) 0 t := by
  have hunit := State.onStreamB_iff.mp h
  have hword : streamOut s.b.s0 s.b.s1 0 = streamOut a b ((r + 1) * s.cfg.blockB.words) := by
    rw [← Nat.add_zero ((r + 1) * s.cfg.blockB.words), streamOut_add, ← hunit.words]
  refine ⟨_, exec_drawB_of_exhausted hunit.blk_length hunit.seeded hc,
    State.onStreamB_iff.mpr (hunit.refill.setCur 1), rfl, ?_⟩
  rw [hword, Nat.zero_div, Nat.zero_mod]
  rfl

/-- `t` is `s` after a seed of unit B with `(a, b)` and `n` draws, on the block number `r` (from zero) of the stream
(42_buffered.md section 6). -/
structure State.DrewB (s : State) (a b : Word) (n r : Nat) (t : State) : Prop where
  cfg : t.cfg = s.cfg
  others : t.u = s.u ∧ t.v = s.v
  onStream : t.OnStreamB a b (r + 1)
  count : DrawCount s.cfg.itemsB n r t.b.cur
  rsps : t.rsps = s.rsps ++
    answers (fun e => bitField (streamOut a b (e / s.cfg.wB.perWord)) s.cfg.wB (e % s.cfg.wB.perWord)) n

/-- A draw of the item that is next by number keeps the count of the draws. -/
theorem State.DrewB.of_takesB {s t t' : State} {a b : Word} {n r r' c' : Nat} (h : s.DrewB a b n r t)
    (ht : t.TakesB a b r' c' t') (hn : r' * s.cfg.itemsB + c' = n)
    (hcount : DrawCount s.cfg.itemsB (n + 1) r' (c' + 1)) : s.DrewB a b (n + 1) r' t' := by
  obtain ⟨hword, helement⟩ := item_index r' s.cfg.blockB.words s.cfg.wB.perWord c' s.cfg.wB.perWord_pos
  obtain ⟨hu, hv⟩ := h.others
  refine ⟨(exec_cfg ht.exec).trans h.cfg, ⟨(exec_u ht.exec nofun).trans hu, (exec_v ht.exec nofun).1.trans hv⟩,
    ht.onStream, ht.cur ▸ hcount, ?_⟩
  subst hn
  rw [ht.rsps, h.rsps, h.cfg, answers_succ, List.append_assoc, Config.itemsB, hword, helement]

theorem State.DrewB.exec_drawB {s t : State} {a b : Word} {n r : Nat} (h : s.DrewB a b n r t) :
    ∃ t', exec .drawB t = .next t' ∧ ∃ r', s.DrewB a b (n + 1) r' t' := by
  obtain hc | hc := h.count.cursor_le.lt_or_eq
  · obtain ⟨t', ht⟩ := h.onStream.takesB_of_lt (h.cfg ▸ hc)
    exact ⟨t', ht.exec, r, h.of_takesB ht h.count.total (h.count.succ_of_lt hc)⟩
  · obtain ⟨t', ht⟩ := h.onStream.takesB_of_exhausted (h.cfg ▸ hc)
    have hcount := h.count
    rw [hc] at hcount
    exact ⟨t', ht.exec, r + 1, h.of_takesB ht (by rw [Nat.succ_mul, ← hcount.total, Nat.add_zero])
      (hcount.succ_of_exhausted s.cfg.itemsB_pos)⟩

theorem State.onStreamB_seedB (s : State) (a b : Word) : (s.seedB a b).OnStreamB a b 1 :=
  ⟨rfl, le_rfl, by rw [Nat.one_mul]; rfl, by rw [Nat.sub_self, Nat.zero_mul]; rfl⟩

theorem run_seedB_draws {s : State} (hlen : s.b.blk.length = s.cfg.blockB.words) (h : s.b.seeded = false) (a b : Word)
    (n : Nat) : ∃ t, Host.Core.run core (n + 1) (s.sends (.seedB a b :: List.replicate n .drawB)) = .next t ∧
      ∃ r, s.DrewB a b n r t :=
  run_cons_replicate (P := fun n t => ∃ r, s.DrewB a b n r t)
    (fun _ ⟨r, hcfg, hothers, honStream, hcount, hrsps⟩ => ⟨r, hcfg, hothers, honStream, hcount, hrsps⟩)
    (fun ⟨_, ht⟩ => ht.exec_drawB) (exec_seedB_of_unseeded (s := s.sends _) hlen h a b)
    ⟨0, rfl, ⟨rfl, rfl⟩, State.onStreamB_seedB _ a b, DrawCount.zero _, rfl⟩

/-- Settles O23: draw `n` takes the item that is next by number, from the buffer or from the block after it. -/
theorem drawsOfBFollowTheStream : Obligations.DrawsOfBFollowTheStream := by
  intro s a b n hlen h
  obtain ⟨t, hrun, r, -, ⟨hu, hv⟩, -, -, hrsps⟩ := run_seedB_draws hlen h a b n
  exact ⟨t, hrun, hu, hv, hrsps⟩

/-- Settles O24: at 64 bits a word has one element, so both units answer the words of the stream. -/
theorem unitBReproducesUnitU : Obligations.UnitBReproducesUnitU := by
  intro s s' a b n hwU hwB hu hb hlen
  obtain ⟨t, hrun, ht⟩ := run_seedU_draws hu a b n
  obtain ⟨t', hrun', r, ht'⟩ := run_seedB_draws hlen hb a b n
  refine ⟨t, t', _, hrun, hrun', answers_length _ n, ht.rsps, ?_⟩
  have hone : Width.w64.perWord = 1 := rfl
  simp only [ht'.rsps, hwU, hwB, hone, Nat.div_one, Nat.mod_one]

/-- Settles O26: a refill moves on to the block after, with the cursor at its first item. -/
theorem refillBDiscardsUnreadItems : Obligations.RefillBDiscardsUnreadItems := by
  intro s a b r h
  have hunit := State.onStreamB_iff.mp h
  have hrefill : (s.refillB.respond .void).OnStreamB a b (r + 1) := State.onStreamB_iff.mpr hunit.refill
  obtain ⟨t, ht⟩ := hrefill.takesB_of_lt s.cfg.itemsB_pos
  refine ⟨_, t, exec_refillB_of_seeded hunit.seeded, ht.exec, ht.onStream, ht.cur, ?_⟩
  rw [ht.rsps, State.respond_rsps, State.refillB_rsps, List.append_assoc, State.respond_b, State.refillB_b,
    UnitB.refill_cur, Nat.zero_div, Nat.zero_mod, Nat.add_zero]
  rfl

/-! ## Unit V -/

/-- Word `q` of the 64-bit view of unit V's stream: the two lanes in turn (43_vector.md section 6). -/
def vectorWord (a b : Word) (q : Nat) : Word := if q % 2 = 0 then streamOut a b (q / 2) else streamOut b a (q / 2)

/-- Lane `q mod 2` of wide word `q div 2` of the block that begins at wide word `m`. -/
theorem laneOf_eq_vectorWord (a b : Word) (m q : Nat) :
    laneOf ⟨streamOut a b (m + q / 2), streamOut b a (m + q / 2)⟩ (q % 2) = vectorWord a b (m * 2 + q) := by
  rw [vectorWord, laneOf, Nat.mul_add_mod_self_right, Nat.mul_comm, Nat.mul_add_div two_pos]

/-- A draw of unit V that takes item `c` of the streams' block number `r` (from zero), leaves the unit on that block and
has run `d` refills (43_vector.md R188). -/
structure State.TakesV (s : State) (a b : Word) (r c d : Nat) (t : State) : Prop where
  exec : exec .drawV s = .next t
  onStream : t.OnStreamV a b (r + 1)
  cur : t.v.cur = c + 1
  refillsV : t.refillsV = s.refillsV + d
  rsps : t.rsps = s.rsps ++ [.data (bitField (vectorWord a b (r * (s.cfg.blockV.words * 2) + c / s.cfg.wV.perWord))
    s.cfg.wV (c % s.cfg.wV.perWord))]

theorem State.OnStreamV.blk_length {s : State} {a b : Word} {r : Nat} (h : s.OnStreamV a b r) :
    s.v.blk.length = s.cfg.blockV.words := by
  obtain ⟨-, -, -, -, hblk⟩ := h
  rw [hblk, wideBlock_length]

theorem State.OnStreamV.takesV_of_lt {s : State} {a b : Word} {r : Nat} (h : s.OnStreamV a b (r + 1))
    (hc : s.v.cur < s.cfg.itemsV) : ∃ t, s.TakesV a b r s.v.cur 0 t := by
  obtain ⟨y, hy, hdraw⟩ := exec_drawV_eq_item_of_lt h.blk_length h.1 hc
  obtain ⟨hseeded, hpos, hwords0, hwords1, hblk⟩ := h
  refine ⟨_, hdraw, ⟨hseeded, hpos, hwords0, hwords1, hblk⟩, rfl, rfl, ?_⟩
  rw [hblk, wideBlock_getElem?, Option.ite_none_right_eq_some, Nat.add_sub_cancel] at hy
  rw [← Option.some.inj hy.2, laneOf_eq_vectorWord, Nat.mul_assoc]

theorem State.OnStreamV.takesV_of_exhausted {s : State} {a b : Word} {r : Nat} (h : s.OnStreamV a b (r + 1))
    (hc : s.v.cur = s.cfg.itemsV) : ∃ t, s.TakesV a b (r + 1) 0 1 t := by
  obtain ⟨hlane0, hlane1⟩ := State.onStreamV_iff.mp h
  have hrefill0 : (s.v.refill s.cfg.blockV).lane0.OnStream s.cfg.blockV a b (r + 1 + 1) :=
    s.v.lane0_refill s.cfg.blockV ▸ hlane0.refill
  have hrefill1 : (s.v.refill s.cfg.blockV).lane1.OnStream s.cfg.blockV b a (r + 1 + 1) :=
    s.v.lane1_refill s.cfg.blockV ▸ hlane1.refill
  have hword : streamOut s.v.S0.lane0 s.v.S1.lane0 0 = vectorWord a b ((r + 1) * (s.cfg.blockV.words * 2)) := by
    calc streamOut s.v.S0.lane0 s.v.S1.lane0 0
        = streamOut a b ((r + 1) * s.cfg.blockV.words + 0) := by rw [streamOut_add, ← hlane0.words]; rfl
      _ = vectorWord a b ((r + 1) * s.cfg.blockV.words * 2) := laneOf_eq_vectorWord a b _ 0
      _ = vectorWord a b ((r + 1) * (s.cfg.blockV.words * 2)) := by rw [Nat.mul_assoc]
  refine ⟨_, exec_drawV_eq_first_of_exhausted h.blk_length hlane0.seeded hc,
    State.onStreamV_iff.mpr ⟨hrefill0.setCur 1, hrefill1.setCur 1⟩, rfl, rfl, ?_⟩
  rw [hword, Nat.zero_div, Nat.zero_mod]
  rfl

/-- `t` is `s` after a seed of unit V with `(a, b)` and `n` draws, on the block number `r` (from zero) of the two
streams (43_vector.md section 6). -/
structure State.DrewV (s : State) (a b : Word) (n r : Nat) (t : State) : Prop where
  cfg : t.cfg = s.cfg
  others : t.u = s.u ∧ t.b = s.b
  onStream : t.OnStreamV a b (r + 1)
  count : DrawCount s.cfg.itemsV n r t.v.cur
  refillsV : t.refillsV = s.refillsV + (1 + r)
  rsps : t.rsps = s.rsps ++
    answers (fun e => bitField (vectorWord a b (e / s.cfg.wV.perWord)) s.cfg.wV (e % s.cfg.wV.perWord)) n

/-- A draw of the item that is next by number keeps the count of the draws. -/
theorem State.DrewV.of_takesV {s t t' : State} {a b : Word} {n r d c' : Nat} (h : s.DrewV a b n r t)
    (ht : t.TakesV a b (r + d) c' d t') (hn : (r + d) * s.cfg.itemsV + c' = n)
    (hcount : DrawCount s.cfg.itemsV (n + 1) (r + d) (c' + 1)) : s.DrewV a b (n + 1) (r + d) t' := by
  obtain ⟨hword, helement⟩ :=
    item_index (r + d) (s.cfg.blockV.words * Config.lanes) s.cfg.wV.perWord c' s.cfg.wV.perWord_pos
  obtain ⟨hu, hb⟩ := h.others
  refine ⟨(exec_cfg ht.exec).trans h.cfg, ⟨(exec_u ht.exec nofun).trans hu, (exec_b ht.exec nofun).1.trans hb⟩,
    ht.onStream, ht.cur ▸ hcount, by rw [ht.refillsV, h.refillsV, Nat.add_assoc, Nat.add_assoc], ?_⟩
  subst hn
  rw [ht.rsps, h.rsps, h.cfg, answers_succ, List.append_assoc, Config.itemsV, hword, helement]
  rfl

theorem State.DrewV.exec_drawV {s t : State} {a b : Word} {n r : Nat} (h : s.DrewV a b n r t) :
    ∃ t', exec .drawV t = .next t' ∧ ∃ r', s.DrewV a b (n + 1) r' t' := by
  obtain hc | hc := h.count.cursor_le.lt_or_eq
  · obtain ⟨t', ht⟩ := h.onStream.takesV_of_lt (h.cfg ▸ hc)
    exact ⟨t', ht.exec, r, h.of_takesV (d := 0) ht h.count.total (h.count.succ_of_lt hc)⟩
  · obtain ⟨t', ht⟩ := h.onStream.takesV_of_exhausted (h.cfg ▸ hc)
    have hcount := h.count
    rw [hc] at hcount
    exact ⟨t', ht.exec, r + 1, h.of_takesV ht (by rw [Nat.succ_mul, ← hcount.total, Nat.add_zero])
      (hcount.succ_of_exhausted s.cfg.itemsV_pos)⟩

theorem State.onStreamV_seedV (s : State) (a b : Word) : (s.seedV a b).OnStreamV a b 1 :=
  ⟨rfl, le_rfl, by rw [Nat.one_mul]; rfl, by rw [Nat.one_mul]; rfl, by rw [Nat.sub_self, Nat.zero_mul]; rfl⟩

theorem run_seedV_draws {s : State} (hlen : s.v.blk.length = s.cfg.blockV.words) (h : s.v.seeded = false) (a b : Word)
    (n : Nat) : ∃ t, Host.Core.run core (n + 1) (s.sends (.seedV a b :: List.replicate n .drawV)) = .next t ∧
      ∃ r, s.DrewV a b n r t :=
  run_cons_replicate (P := fun n t => ∃ r, s.DrewV a b n r t)
    (fun _ ⟨r, hcfg, hothers, honStream, hcount, hrefills, hrsps⟩ =>
      ⟨r, hcfg, hothers, honStream, hcount, hrefills, hrsps⟩)
    (fun ⟨_, ht⟩ => ht.exec_drawV) (exec_seedV_eq_seedV (s := s.sends _) hlen h a b)
    ⟨0, rfl, ⟨rfl, rfl⟩, State.onStreamV_seedV _ a b, DrawCount.zero _, rfl, rfl⟩

/-- Settles O33: draw `e` takes the item that is next by number, whose word is a lane's; the count of the draws tells
the refills. -/
theorem drawsOfVInterleaveTheLanes : Obligations.DrawsOfVInterleaveTheLanes := by
  intro s a b n hlen h
  obtain ⟨t, hrun, r, -, ⟨hu, hb⟩, -, hcount, hrefills, hrsps⟩ := run_seedV_draws hlen h a b n
  refine ⟨t, hrun, hu, hb, ?_, hrsps⟩
  rw [hrefills, hcount.refills_eq s.cfg.itemsV_pos]
  split
  · next hn => rw [hn, Nat.zero_sub, Nat.zero_div]
  · rfl

end Sys2Proof.Machine
end
